-- ==== Sys2Proof/Word.lean ====
section
/-! DEFINITION. The word types of the LS-8 core (spec/00_scope.md R4, R5). -/

namespace Sys2Proof

/-- A byte: one register, one memory cell, one instruction byte (`XLEN` = 8, R4). Unsigned (R5). -/
abbrev Byte := BitVec 8

/-- A checked register index, R0 to R7 (`NREG` = 8, R4; 10_state.md R10). -/
abbrev RegIndex := Fin 8

end Sys2Proof
end

