-- ==== Sys2Proof/Config.lean ====
section
/-! DEFINITION. The implementation parameters of the core, at the values spec/00_scope.md R4 gives them. -/

namespace Sys2Proof.Config

/-- `MEM_SIZE`: the number of memory cells; the valid addresses are 0 to 255. -/
abbrev memSize : Nat := 256

/-- `SP_INDEX`: R7 is the stack pointer. -/
abbrev spIndex : RegIndex := 7

/-- `IS_INDEX`: R6 has the inert role of interrupt status. -/
abbrev isIndex : RegIndex := 6

/-- `IM_INDEX`: R5 has the inert role of interrupt mask. -/
abbrev imIndex : RegIndex := 5

/-- `SP_RESET`: the value of R7 after reset. -/
abbrev spReset : Byte := 0xF4#8

/-- `LOAD_BASE`: the address at which `load` puts the first byte of the program image. -/
abbrev loadBase : Nat := 0

/-- `PC_RESET`: the value of PC after reset and after `load`. -/
abbrev pcReset : Nat := 0

/-- `PC_MAX`: the largest value R14 allows PC. -/
abbrev pcMax : Nat := 258

/-- `FL_RESET`: the value of FL after reset (the spec's decision D5). -/
abbrev flReset : Byte := 0#8

/-- The value of IR after reset (10_state.md R18, R22; the spec's decision D5). -/
abbrev irReset : Byte := 0#8

/-- What a memory cell that is not listed reads as: memory is zero at reset (10_state.md R22, R24). -/
abbrev unlistedByte : Byte := 0#8

/-- `LDST_IMPLEMENTED`: LD and ST execute (R4; the spec's decision D9). -/
abbrev ldstImplemented : Bool := true

end Sys2Proof.Config
end

