-- ==== Sys2Proof/Syntax.lean ====
section
/-! DEFINITION. The syntax of the LS-8 instruction set: one constructor for each of the 34 rows of
spec/opcode_table.json (30_encoding.md R54), with its operand bytes (R53).

An operand is the whole byte as it was fetched: a register operand is a byte whose value is taken as an index, not a
3-bit field (R53, R56), and a byte above 7 is met when the instruction is executed. -/

namespace Sys2Proof

/-- The operation identity of an opcode byte (10_state.md R19, 30_encoding.md R51): the mnemonic of its table row. -/
inductive Op where
  | nop | hlt | ret | iret | push | pop | prn | pra | call | int | jmp | jeq | jne | jgt | jlt
  | jle | jge | inc | dec | not | ldi | ld | st | add | sub | mul | div | mod | cmp | and | or
  | xor | shl | shr
  deriving DecidableEq, Repr

/-- The four instruction formats (30_encoding.md R53). -/
inductive Format where
  /-- No operand byte. -/
  | z
  /-- One register operand. -/
  | r
  /-- Two register operands. -/
  | rr
  /-- A register operand and an immediate byte. -/
  | ri
  deriving DecidableEq, Repr

/-- An instruction with its operand bytes, `a` at PC+1 and `b` at PC+2 (30_encoding.md R50, R53). -/
inductive Instr where
  /-- NOP. No operation (44_system.md R125). -/
  | nop
  /-- HLT. Halt (R126). -/
  | hlt
  /-- RET. Return (43_control_transfer.md R119). -/
  | ret
  /-- IRET. In the table, decode-consistent only (44_system.md R130). -/
  | iret
  /-- PUSH. Push `x[a]` (42_data_movement.md R103). -/
  | push (a : Byte)
  /-- POP. Pop into `x[a]` (R104). -/
  | pop (a : Byte)
  /-- PRN. Print `x[a]` as a number (44_system.md R127). -/
  | prn (a : Byte)
  /-- PRA. Print `x[a]` as a character (R128). -/
  | pra (a : Byte)
  /-- CALL. Call the address in `x[a]` (43_control_transfer.md R118). -/
  | call (a : Byte)
  /-- INT. In the table, decode-consistent only (44_system.md R129). -/
  | int (a : Byte)
  /-- JMP. Jump to `x[a]` (43_control_transfer.md R111). -/
  | jmp (a : Byte)
  /-- JEQ. Jump if equal (R112). -/
  | jeq (a : Byte)
  /-- JNE. Jump if not equal (R113). -/
  | jne (a : Byte)
  /-- JGT. Jump if greater (R114). -/
  | jgt (a : Byte)
  /-- JLT. Jump if less (R115). -/
  | jlt (a : Byte)
  /-- JLE. Jump if less or equal (R116). -/
  | jle (a : Byte)
  /-- JGE. Jump if greater or equal (R117). -/
  | jge (a : Byte)
  /-- INC. Increment (41_alu.md R85). -/
  | inc (a : Byte)
  /-- DEC. Decrement (R86). -/
  | dec (a : Byte)
  /-- NOT. Complement (R90). -/
  | not (a : Byte)
  /-- LDI. Load the immediate `b` into `x[a]` (42_data_movement.md R102). -/
  | ldi (a imm : Byte)
  /-- LD. Load `x[a]` from the address in `x[b]` (R105). -/
  | ld (a b : Byte)
  /-- ST. Store `x[b]` at the address in `x[a]` (R106). -/
  | st (a b : Byte)
  /-- ADD. Add (41_alu.md R80). -/
  | add (a b : Byte)
  /-- SUB. Subtract (R81). -/
  | sub (a b : Byte)
  /-- MUL. Multiply (R82). -/
  | mul (a b : Byte)
  /-- DIV. Divide (R83). -/
  | div (a b : Byte)
  /-- MOD. Remainder (R84). -/
  | mod (a b : Byte)
  /-- CMP. Compare (R93). -/
  | cmp (a b : Byte)
  /-- AND. Bitwise and (R87). -/
  | and (a b : Byte)
  /-- OR. Bitwise or (R88). -/
  | or (a b : Byte)
  /-- XOR. Bitwise exclusive or (R89). -/
  | xor (a b : Byte)
  /-- SHL. Shift left (R91). -/
  | shl (a b : Byte)
  /-- SHR. Shift right (R92). -/
  | shr (a b : Byte)
  deriving DecidableEq, Repr

/-- The operation of an instruction. -/
def Instr.op : Instr → Op
  | .nop => .nop
  | .hlt => .hlt
  | .ret => .ret
  | .iret => .iret
  | .push _ => .push
  | .pop _ => .pop
  | .prn _ => .prn
  | .pra _ => .pra
  | .call _ => .call
  | .int _ => .int
  | .jmp _ => .jmp
  | .jeq _ => .jeq
  | .jne _ => .jne
  | .jgt _ => .jgt
  | .jlt _ => .jlt
  | .jle _ => .jle
  | .jge _ => .jge
  | .inc _ => .inc
  | .dec _ => .dec
  | .not _ => .not
  | .ldi _ _ => .ldi
  | .ld _ _ => .ld
  | .st _ _ => .st
  | .add _ _ => .add
  | .sub _ _ => .sub
  | .mul _ _ => .mul
  | .div _ _ => .div
  | .mod _ _ => .mod
  | .cmp _ _ => .cmp
  | .and _ _ => .and
  | .or _ _ => .or
  | .xor _ _ => .xor
  | .shl _ _ => .shl
  | .shr _ _ => .shr

/-- The operand bytes of an instruction, in address order (30_encoding.md R50). -/
def Instr.operands : Instr → List Byte
  | .nop => []
  | .hlt => []
  | .ret => []
  | .iret => []
  | .push a => [a]
  | .pop a => [a]
  | .prn a => [a]
  | .pra a => [a]
  | .call a => [a]
  | .int a => [a]
  | .jmp a => [a]
  | .jeq a => [a]
  | .jne a => [a]
  | .jgt a => [a]
  | .jlt a => [a]
  | .jle a => [a]
  | .jge a => [a]
  | .inc a => [a]
  | .dec a => [a]
  | .not a => [a]
  | .ldi a imm => [a, imm]
  | .ld a b => [a, b]
  | .st a b => [a, b]
  | .add a b => [a, b]
  | .sub a b => [a, b]
  | .mul a b => [a, b]
  | .div a b => [a, b]
  | .mod a b => [a, b]
  | .cmp a b => [a, b]
  | .and a b => [a, b]
  | .or a b => [a, b]
  | .xor a b => [a, b]
  | .shl a b => [a, b]
  | .shr a b => [a, b]

/-- The mnemonic of the opcode table (30_encoding.md R54). -/
def Op.mnemonic : Op → String
  | .nop => "NOP"
  | .hlt => "HLT"
  | .ret => "RET"
  | .iret => "IRET"
  | .push => "PUSH"
  | .pop => "POP"
  | .prn => "PRN"
  | .pra => "PRA"
  | .call => "CALL"
  | .int => "INT"
  | .jmp => "JMP"
  | .jeq => "JEQ"
  | .jne => "JNE"
  | .jgt => "JGT"
  | .jlt => "JLT"
  | .jle => "JLE"
  | .jge => "JGE"
  | .inc => "INC"
  | .dec => "DEC"
  | .not => "NOT"
  | .ldi => "LDI"
  | .ld => "LD"
  | .st => "ST"
  | .add => "ADD"
  | .sub => "SUB"
  | .mul => "MUL"
  | .div => "DIV"
  | .mod => "MOD"
  | .cmp => "CMP"
  | .and => "AND"
  | .or => "OR"
  | .xor => "XOR"
  | .shl => "SHL"
  | .shr => "SHR"

/-- A register operand as R58 writes it: `R` and the number. -/
def registerName (a : Byte) : String := "R" ++ toString a.toNat

/-- The assembly text of an instruction (30_encoding.md R58): `MNEMONIC`, `MNEMONIC Ra`, `MNEMONIC Ra,Rb` or
`LDI Ra,imm` with the immediate in decimal. Notation only. -/
def Instr.assembly (i : Instr) : String :=
  match i with
  | .ldi a imm => i.op.mnemonic ++ " " ++ registerName a ++ "," ++ toString imm.toNat
  | _ =>
    match i.operands with
    | [] => i.op.mnemonic
    | a :: rest => i.op.mnemonic ++ " " ++ ",".intercalate ((a :: rest).map registerName)

end Sys2Proof
end

