-- ==== Sys2Proof/WellFormed.lean ====
section
/-! DEFINITION. Which instructions are well formed: every register operand that is checked names one of R0 to R7
(spec/30_encoding.md R56, 60_exceptions.md R143).

An ill-formed instruction still has a meaning: it takes the fault InvalidRegister. -/

namespace Sys2Proof

/-- The operand bytes that are checked as register indices, in the order they are checked, `a` then `b` (R56). The
immediate of LDI is not one (42_data_movement.md R102), and the operand of INT is never checked (44_system.md R129). -/
def Instr.regOperands : Instr → List Byte
  | .nop => []
  | .hlt => []
  | .ret => []
  | .iret => []
  | .push a => [a]
  | .pop a => [a]
  | .prn a => [a]
  | .pra a => [a]
  | .call a => [a]
  | .int _ => []
  | .jmp a => [a]
  | .jeq a => [a]
  | .jne a => [a]
  | .jgt a => [a]
  | .jlt a => [a]
  | .jle a => [a]
  | .jge a => [a]
  | .inc a => [a]
  | .dec a => [a]
  | .not a => [a]
  | .ldi a _ => [a]
  | .ld a b => [a, b]
  | .st a b => [a, b]
  | .add a b => [a, b]
  | .sub a b => [a, b]
  | .mul a b => [a, b]
  | .div a b => [a, b]
  | .mod a b => [a, b]
  | .cmp a b => [a, b]
  | .and a b => [a, b]
  | .or a b => [a, b]
  | .xor a b => [a, b]
  | .shl a b => [a, b]
  | .shr a b => [a, b]

/-- Well formed: every checked register operand is 0 to 7. -/
def Instr.wf (i : Instr) : Bool := i.regOperands.all fun a => decide (a.toNat < 8)

/-- The first checked register operand that is above 7, if there is one: the datum of the fault R56 raises. -/
def Instr.badRegister (i : Instr) : Option Byte := i.regOperands.find? fun a => decide (8 ≤ a.toNat)

end Sys2Proof
end

