-- ==== Sys2Proof/Decode.lean ====
section
/-! DEFINITION. The decoder and the encoder (spec/30_encoding.md R50 to R57; 40_fetch_execute_cycle.md R67, R69). -/

namespace Sys2Proof

/-- `v[hi:lo]` of a byte as an unsigned number (00_scope.md R5). -/
def bitField (b : Byte) (hi lo : Nat) : Nat := b.toNat / 2 ^ lo % 2 ^ (hi + 1 - lo)

/-- `v[i]` of a byte (00_scope.md R5). -/
def bitAt (b : Byte) (i : Nat) : Bool := b.getLsbD i

/-- One row of the opcode table (R54); each row matches all 8 bits. -/
structure TableRow where
  opcode : Byte
  op : Op
  format : Format
  deriving DecidableEq, Repr

/-- The rows of format Z (R53, R54). -/
def zeroOperandRows : List TableRow :=
  [⟨0x00#8, .nop, .z⟩,
   ⟨0x01#8, .hlt, .z⟩,
   ⟨0x11#8, .ret, .z⟩,
   ⟨0x13#8, .iret, .z⟩]

/-- The rows of format R (R53, R54). -/
def oneRegisterRows : List TableRow :=
  [⟨0x45#8, .push, .r⟩,
   ⟨0x46#8, .pop, .r⟩,
   ⟨0x47#8, .prn, .r⟩,
   ⟨0x48#8, .pra, .r⟩,
   ⟨0x50#8, .call, .r⟩,
   ⟨0x52#8, .int, .r⟩,
   ⟨0x54#8, .jmp, .r⟩,
   ⟨0x55#8, .jeq, .r⟩,
   ⟨0x56#8, .jne, .r⟩,
   ⟨0x57#8, .jgt, .r⟩,
   ⟨0x58#8, .jlt, .r⟩,
   ⟨0x59#8, .jle, .r⟩,
   ⟨0x5A#8, .jge, .r⟩,
   ⟨0x65#8, .inc, .r⟩,
   ⟨0x66#8, .dec, .r⟩,
   ⟨0x69#8, .not, .r⟩]

/-- The row of format RI (R53, R54). -/
def immediateRows : List TableRow :=
  [⟨0x82#8, .ldi, .ri⟩]

/-- The rows of format RR (R53, R54). -/
def twoRegisterRows : List TableRow :=
  [⟨0x83#8, .ld, .rr⟩,
   ⟨0x84#8, .st, .rr⟩,
   ⟨0xA0#8, .add, .rr⟩,
   ⟨0xA1#8, .sub, .rr⟩,
   ⟨0xA2#8, .mul, .rr⟩,
   ⟨0xA3#8, .div, .rr⟩,
   ⟨0xA4#8, .mod, .rr⟩,
   ⟨0xA7#8, .cmp, .rr⟩,
   ⟨0xA8#8, .and, .rr⟩,
   ⟨0xAA#8, .or, .rr⟩,
   ⟨0xAB#8, .xor, .rr⟩,
   ⟨0xAC#8, .shl, .rr⟩,
   ⟨0xAD#8, .shr, .rr⟩]

/-- The closed opcode table of R54: 34 rows. -/
def opcodeTable : List TableRow := zeroOperandRows ++ oneRegisterRows ++ immediateRows ++ twoRegisterRows

/-- `table(byte)`: the operation of an opcode byte, or none for an unknown byte (R51, R57). -/
def lookup (byte : Byte) : Option Op := (opcodeTable.find? fun row => row.opcode == byte).map fun row => row.op

/-- The instruction descriptor (10_state.md R19, 30_encoding.md R51). -/
structure Descriptor where
  /-- `AA`, bits 7..6. -/
  operandCount : Nat
  /-- `B`, bit 5. -/
  isAlu : Bool
  /-- `C`, bit 4. -/
  setsPc : Bool
  /-- The table row's operation, none when unknown. -/
  operation : Option Op
  deriving DecidableEq, Repr

/-- `decode(opcode_byte)` of R51: total, it never fails. -/
def describe (byte : Byte) : Descriptor :=
  ⟨bitField byte 7 6, bitAt byte 5, bitAt byte 4, lookup byte⟩

/-- How many operand bytes the engine fetches for an opcode byte: at most two (R52, 40_fetch_execute_cycle.md R68). -/
def fetchCount (byte : Byte) : Nat := min (describe byte).operandCount 2

/-- The instruction of an operation and its operand bytes; an operand the format does not have is not used. -/
def build (o : Op) (a b : Byte) : Instr :=
  match o with
  | .nop => .nop
  | .hlt => .hlt
  | .ret => .ret
  | .iret => .iret
  | .push => .push a
  | .pop => .pop a
  | .prn => .prn a
  | .pra => .pra a
  | .call => .call a
  | .int => .int a
  | .jmp => .jmp a
  | .jeq => .jeq a
  | .jne => .jne a
  | .jgt => .jgt a
  | .jlt => .jlt a
  | .jle => .jle a
  | .jge => .jge a
  | .inc => .inc a
  | .dec => .dec a
  | .not => .not a
  | .ldi => .ldi a b
  | .ld => .ld a b
  | .st => .st a b
  | .add => .add a b
  | .sub => .sub a b
  | .mul => .mul a b
  | .div => .div a b
  | .mod => .mod a b
  | .cmp => .cmp a b
  | .and => .and a b
  | .or => .or a b
  | .xor => .xor a b
  | .shl => .shl a b
  | .shr => .shr a b

/-- Why a byte sequence is not an instruction. -/
inductive DecodeError where
  /-- There is no byte. -/
  | noBytes
  /-- The opcode byte is not in the table (R57). -/
  | unknownOpcode (byte : Byte)
  /-- Operand bytes are missing (R50). -/
  | truncated (byte : Byte)
  deriving DecidableEq, Repr

/-- Takes the operand bytes that `AA` asks for (R50, R51). -/
def takeOperands (byte : Byte) (o : Op) (rest : List Byte) : Except DecodeError (Instr × List Byte) :=
  match (describe byte).operandCount, rest with
  | 0, rest => .ok (build o 0 0, rest)
  | 1, a :: rest => .ok (build o a 0, rest)
  | 2, a :: b :: rest => .ok (build o a b, rest)
  | _, _ => .error (.truncated byte)

/-- The decoder on any bytes: the instruction they begin with and the bytes after it, or why there is none. -/
def decode : List Byte → Except DecodeError (Instr × List Byte)
  | [] => .error .noBytes
  | byte :: rest =>
    match lookup byte with
    | none => .error (.unknownOpcode byte)
    | some o => takeOperands byte o rest

/-- The opcode byte of an operation, written out from the table of R54. -/
def Op.opcode : Op → Byte
  | .nop => 0x00#8
  | .hlt => 0x01#8
  | .ret => 0x11#8
  | .iret => 0x13#8
  | .push => 0x45#8
  | .pop => 0x46#8
  | .prn => 0x47#8
  | .pra => 0x48#8
  | .call => 0x50#8
  | .int => 0x52#8
  | .jmp => 0x54#8
  | .jeq => 0x55#8
  | .jne => 0x56#8
  | .jgt => 0x57#8
  | .jlt => 0x58#8
  | .jle => 0x59#8
  | .jge => 0x5A#8
  | .inc => 0x65#8
  | .dec => 0x66#8
  | .not => 0x69#8
  | .ldi => 0x82#8
  | .ld => 0x83#8
  | .st => 0x84#8
  | .add => 0xA0#8
  | .sub => 0xA1#8
  | .mul => 0xA2#8
  | .div => 0xA3#8
  | .mod => 0xA4#8
  | .cmp => 0xA7#8
  | .and => 0xA8#8
  | .or => 0xAA#8
  | .xor => 0xAB#8
  | .shl => 0xAC#8
  | .shr => 0xAD#8

/-- The bytes of an instruction in address order: the opcode, then the operand bytes (R50). -/
def encode (i : Instr) : List Byte := i.op.opcode :: i.operands

/-- The three bytes (the longest instruction, R50) of a table word `w` of `nbits` bits, the first byte the least
significant; the bits above `nbits` are 0. -/
def tableWordBytes (nbits w : Nat) : List Byte :=
  let v := w % 2 ^ nbits
  [BitVec.ofNat 8 v, BitVec.ofNat 8 (v / 2 ^ 8), BitVec.ofNat 8 (v / 2 ^ 16)]

/-- The instruction the decoder reads from a table word. -/
def decodeTableWord (nbits w : Nat) : Option Instr :=
  match decode (tableWordBytes nbits w) with
  | .ok (i, _) => some i
  | .error _ => none

end Sys2Proof
end

