-- ==== Sys2Proof/Machine/State.lean ====
section
/-! DEFINITION. The state of the LS-8 core and its reset value (spec/10_state.md, 60_exceptions.md R141). -/

namespace Sys2Proof.Machine

/-- The two run states (10_state.md R23, 60_exceptions.md R161). -/
inductive RunState where
  | running
  | halted
  deriving DecidableEq, Repr

/-- The six fault kinds of the core, each with the datum 60_exceptions.md R141 gives it. A fault is the content of the
fault record ERR: a step that meets one answers a NEXT state with RUN = Halted and the fault in ERR (R150, R162), so no
step answers `Host.Outcome.fault`. Each is safe: it is what the spec says the machine does. -/
inductive Fault where
  /-- A fetch of an opcode or operand byte at an address above 255 (R142). Raised by `memRead` and `memWrite`. Safe. -/
  | outOfBounds (addr : Nat)
  /-- A register operand byte above 7 (R143). Raised by `reg`. Safe. -/
  | invalidRegister (idx : Byte)
  /-- A value above 255 handed to a memory write, in a run only CALL's return address 256 (R144). Raised by `memWrite`.
  Safe. -/
  | invalidValue (v : Nat)
  /-- DIV or MOD with a zero divisor, with the opcode (R145). Raised by `Alu.apply`. Safe. -/
  | divisionByZero (op : Byte)
  /-- An opcode byte that is not in the table (R146). Raised by the fetch and dispatch stages. Safe. -/
  | unknownOpcode (op : Byte)
  /-- An opcode byte that is in the table and has no execution in this hardware: INT and IRET (R147), and LD and ST if
  `LDST_IMPLEMENTED` were false. Raised by their meanings. Safe. -/
  | unsupportedOperation (op : Byte)
  deriving DecidableEq, Repr

/-- Why a step is refused. -/
inductive Refusal where
  /-- An instruction that has no meaning yet; no arm of `exec` answers it. Safe: nothing can be proved of it. -/
  | notModelled (mnemonic : String)
  /-- A step asked for when RUN = Halted: it is refused, nothing is executed (70_reset_and_hazards.md R176,
  40_fetch_execute_cycle.md R71). Raised by `step` alone. Safe: the spec says the request is refused. -/
  | halted
  deriving DecidableEq, Repr

/-- One event of the output stream, carrying the byte printed (10_state.md R20). -/
inductive Event where
  /-- `Dec(v)`, of PRN. -/
  | dec (v : Byte)
  /-- `Chr(v)`, of PRA. -/
  | chr (v : Byte)
  deriving DecidableEq, Repr

/-- MEM (10_state.md R24) as the list of the cells that do not hold `Config.unlistedByte`, addresses strictly rising
(`Memory.wf`). -/
abbrev Memory := List Host.Cell

/-- The whole state of the core (10_state.md). -/
structure State where
  /-- `x`: the registers R0 to R7 (R10). -/
  regs : Vector Byte 8
  /-- FL = `0b00000LGE` (R16). -/
  fl : Byte
  /-- PC, an integer that is never reduced modulo 256 (R14). -/
  pc : Nat
  /-- IR, the last opcode byte fetched; trace only, no rule reads it (R18). -/
  ir : Byte
  /-- MEM (R24). -/
  mem : Memory
  /-- RUN (R23). -/
  run : RunState
  /-- ERR, none or the fault record (R23). -/
  err : Option Fault
  /-- OUT, the output events, the oldest first (R20). -/
  out : List Event
  deriving DecidableEq, Repr

/-- The state after reset (10_state.md R13, R22; 70_reset_and_hazards.md R170, R171). -/
def State.reset : State :=
  { regs := #v[0#8, 0#8, 0#8, 0#8, 0#8, 0#8, 0#8, Config.spReset]
    fl := Config.flReset
    pc := Config.pcReset
    ir := Config.irReset
    mem := []
    run := .running
    err := none
    out := [] }

end Sys2Proof.Machine
end

