-- ==== Sys2Proof/Machine/Ops.lean ====
section
/-! DEFINITION. The named operations over registers, memory, the output stream and the run state, taking a fault, and
the end of a step (spec/10_state.md, 20_memory.md, 42_data_movement.md R100, R101, 60_exceptions.md R150). -/

namespace Sys2Proof.Machine

/-- `mask8(n)`: `n mod 256` for any integer (00_scope.md R5). -/
def mask8 (n : Int) : Byte := BitVec.ofInt 8 n

/-! ## Registers and the other plain fields -/

/-- `x[i]` (10_state.md R10). -/
def State.readReg (s : State) (i : RegIndex) : Byte := s.regs[i]

/-- `x[i] <- v`: stores `mask8(v)` (10_state.md R11). -/
def State.writeReg (s : State) (i : RegIndex) (v : Int) : State := { s with regs := s.regs.set i (mask8 v) }

/-- `PC <- t` (10_state.md R15). -/
def State.writePc (s : State) (t : Nat) : State := { s with pc := t }

/-- `IR <- op` (10_state.md R18). -/
def State.writeIr (s : State) (op : Byte) : State := { s with ir := op }

/-- `FL <- fl` (10_state.md R16). -/
def State.writeFl (s : State) (fl : Byte) : State := { s with fl := fl }

/-- MEM as a whole. -/
def State.writeMem (s : State) (m : Memory) : State := { s with mem := m }

/-- `RUN <- Halted` with ERR left alone (44_system.md R126). -/
def State.halt (s : State) : State := { s with run := .halted }

/-- `emit e`: appends to OUT (10_state.md R20). -/
def State.emit (s : State) (e : Event) : State := { s with out := s.out ++ [e] }

/-! ## Memory -/

/-- The byte of one cell; a cell that is not listed is zero (10_state.md R24). -/
def Memory.get : Memory → Nat → Byte
  | [], _ => Config.unlistedByte
  | (k, v) :: rest, a => if k = a then v else Memory.get rest a

/-- The memory with no entry for the cell. -/
def Memory.erase (m : Memory) (a : Nat) : Memory := m.filter fun cell => decide (cell.1 ≠ a)

/-- An entry for a cell that has none, put in before the first higher address. -/
def Memory.insert : Memory → Nat → Byte → Memory
  | [], a, v => [(a, v)]
  | (k, w) :: rest, a, v => if a < k then (a, v) :: (k, w) :: rest else (k, w) :: Memory.insert rest a v

/-- One cell written (20_memory.md R30: exactly the cell written changes); a cell that becomes zero is not listed. -/
def Memory.set (m : Memory) (a : Nat) (v : Byte) : Memory :=
  if v = Config.unlistedByte then m.erase a else (m.erase a).insert a v

/-- Canonical from address `lo` up: addresses strictly rising and below 256, no listed cell zero. -/
def Memory.wfFrom : Nat → Memory → Bool
  | _, [] => true
  | lo, (k, v) :: rest =>
    decide (lo ≤ k) && decide (k < Config.memSize) && decide (v ≠ Config.unlistedByte) && Memory.wfFrom (k + 1) rest

/-- The canonical form of a memory. -/
def Memory.wf (m : Memory) : Bool := Memory.wfFrom 0 m

/-- `MemRead(addr, 1)` (20_memory.md R31): the address is checked as it stands, never reduced. -/
def memRead (m : Memory) (addr : Nat) : Except Fault Byte :=
  if addr < Config.memSize then .ok (m.get addr) else .error (.outOfBounds addr)

/-- `MemWrite(addr, 1, v)` (20_memory.md R32): the address check, then the value check. -/
def memWrite (m : Memory) (addr v : Nat) : Except Fault Memory :=
  if addr < Config.memSize then
    if v < 256 then .ok (m.set addr (BitVec.ofNat 8 v)) else .error (.invalidValue v)
  else .error (.outOfBounds addr)

/-- Consecutive cells written from an address up: what `load` does with the program image
(70_reset_and_hazards.md R174). -/
def Memory.install (m : Memory) (addr : Nat) : List Byte → Memory
  | [] => m
  | v :: rest => Memory.install (m.set addr v) (addr + 1) rest

/-- `MemRead` of a state's memory. -/
def State.readByte (s : State) (addr : Nat) : Except Fault Byte := memRead s.mem addr

/-- `MemWrite` to a state's memory. -/
def State.storeByte (s : State) (addr v : Nat) : Except Fault State := do
  let m ← memWrite s.mem addr v
  return s.writeMem m

/-! ## The stack -/

/-- SP, the value of R7 (10_state.md R12). -/
def State.sp (s : State) : Byte := s.readReg Config.spIndex

/-- `x[7] <- mask8(x[7] - 1)` (42_data_movement.md R100). -/
def State.decSp (s : State) : State := s.writeReg Config.spIndex ((s.sp.toNat : Int) - 1)

/-- `x[7] <- mask8(x[7] + 1)` (42_data_movement.md R101). -/
def State.incSp (s : State) : State := s.writeReg Config.spIndex ((s.sp.toNat : Int) + 1)

/-- `push(v)` (42_data_movement.md R100): decrement SP, then write at the new SP. -/
def State.push (s : State) (v : Nat) : Except Fault State := s.decSp.storeByte s.decSp.sp.toNat v

/-- `pop()` (42_data_movement.md R101): read at SP, then increment SP. -/
def State.pop (s : State) : Except Fault (Byte × State) := do
  let v ← s.readByte s.sp.toNat
  return (v, s.incSp)

/-! ## Taking a fault, and the end of a step -/

/-- Fault entry (60_exceptions.md R150): `ERR <- F(info)`, `RUN <- Halted`, nothing else. `s` is the state at the start
of the step, with IR written if the opcode fetch succeeded, so every other effect of the step is discarded (R72).
There is no return from a fault (R152): only the host's reset and load leave Halted. -/
def raise (f : Fault) (s : State) : State := { s with run := .halted, err := some f }

/-- Stage 5 (40_fetch_execute_cycle.md R70): unless the opcode sets PC itself or the engine has halted,
`PC <- PC + 1 + operand_count`. -/
def advancePc (d : Descriptor) (s : State) : State :=
  if s.run = .running ∧ d.setsPc = false then s.writePc (s.pc + 1 + d.operandCount) else s

/-- The end of the execute stage of an instruction started in `s` (40_fetch_execute_cycle.md R65, R72): its effects and
the PC update, or, when it raised a fault, fault entry from `s`. -/
def complete (o : Op) (s : State) (r : Except Fault State) : Host.Outcome State Fault Refusal :=
  match r with
  | .ok t => .next (advancePc (describe o.opcode) t)
  | .error f => .next (raise f s)

end Sys2Proof.Machine
end

