-- ==== Sys2Proof/Machine/Flags.lean ====
section
/-! DEFINITION. The flags register FL = `0b00000LGE` (spec/10_state.md R16), what CMP computes (41_alu.md R93) and the
conditions of the six conditional jumps (43_control_transfer.md R120). -/

namespace Sys2Proof.Machine

/-- L, bit 2. -/
def flagL (fl : Byte) : Bool := bitAt fl 2

/-- G, bit 1. -/
def flagG (fl : Byte) : Bool := bitAt fl 1

/-- E, bit 0. -/
def flagE (fl : Byte) : Bool := bitAt fl 0

/-- `(L << 2) | (G << 1) | E` (41_alu.md R93). -/
def packFlags (l g e : Bool) : Byte :=
  BitVec.ofNat 8 ((l.toNat <<< 2) ||| (g.toNat <<< 1) ||| e.toNat)

/-- The flags of an unsigned comparison (41_alu.md R93): all three are replaced. -/
def compareFlags (va vb : Byte) : Byte :=
  packFlags (decide (va.toNat < vb.toNat)) (decide (va.toNat > vb.toNat)) (decide (va.toNat = vb.toNat))

/-- JEQ: E = 1 (R120, R112). -/
def condJeq (fl : Byte) : Bool := flagE fl

/-- JNE: E = 0 (R120, R113). -/
def condJne (fl : Byte) : Bool := !flagE fl

/-- JGT: G = 1 (R120, R114). -/
def condJgt (fl : Byte) : Bool := flagG fl

/-- JLT: L = 1 (R120, R115). -/
def condJlt (fl : Byte) : Bool := flagL fl

/-- JLE: L = 1 or E = 1 (R120, R116). -/
def condJle (fl : Byte) : Bool := flagL fl || flagE fl

/-- JGE: G = 1 or E = 1 (R120, R117). -/
def condJge (fl : Byte) : Bool := flagG fl || flagE fl

end Sys2Proof.Machine
end

