-- ==== Sys2Proof/Machine/Operands.lean ====
section
/-! DEFINITION. The operand forms (spec/42_data_movement.md R108, 30_encoding.md R55, R56) and the shapes that are shared
by instructions of one form. -/

namespace Sys2Proof.Machine

/-- `reg(a)` (30_encoding.md R56): the byte is checked, not masked to 3 bits. -/
def reg (a : Byte) : Except Fault RegIndex :=
  if h : a.toNat < 8 then .ok ⟨a.toNat, h⟩ else .error (.invalidRegister a)

/-- The operand byte that names a register. -/
def regByte (i : RegIndex) : Byte := BitVec.ofNat 8 i.val

/-- The immediate of LDI: the byte as it stands (30_encoding.md R55). -/
def immediate (imm : Byte) : Int := (imm.toNat : Int)

/-- Register indirect (42_data_movement.md R108): the effective address `x[i]`, always 0 to 255. -/
def indirect (s : State) (i : RegIndex) : Nat := (s.readReg i).toNat

/-- The target of a control transfer: absolute and held in a register (43_control_transfer.md R110). -/
def target (s : State) (i : RegIndex) : Nat := (s.readReg i).toNat

/-- An instruction with one register operand: the operand is checked, then the body runs (R56, 60_exceptions.md R151). -/
def withReg (o : Op) (a : Byte) (s : State) (body : RegIndex → Except Fault State) :
    Host.Outcome State Fault Refusal :=
  complete o s do
    let ra ← reg a
    body ra

/-- An instruction with two register operands: `a` is checked, then `b`, then the body runs (R56, R151). -/
def withRegs (o : Op) (a b : Byte) (s : State) (body : RegIndex → RegIndex → Except Fault State) :
    Host.Outcome State Fault Refusal :=
  complete o s do
    let ra ← reg a
    let rb ← reg b
    body ra rb

end Sys2Proof.Machine
end

