-- ==== Sys2Proof/Machine/Alu.lean ====
section
/-! DEFINITION. The ALU (spec/41_alu.md R94, R95) and the meanings of the 14 ALU instructions. -/

namespace Sys2Proof.Machine

/-- The 14 operations of the ALU (41_alu.md). -/
inductive AluOp where
  | add | sub | mul | div | mod | inc | dec | cmp | and | or | xor | not | shl | shr
  deriving DecidableEq, Repr

/-- What the ALU returns (R94): a result, or for CMP a flags update. -/
inductive AluOut where
  | result (v : Byte)
  | flags (fl : Byte)
  deriving DecidableEq, Repr

/-- ADD (R80): the exact sum, masked. -/
def aluAdd (va vb : Byte) : Byte := mask8 ((va.toNat : Int) + vb.toNat)

/-- SUB (R81): the exact difference, masked; a negative one wraps (R95). -/
def aluSub (va vb : Byte) : Byte := mask8 ((va.toNat : Int) - vb.toNat)

/-- MUL (R82): the low 8 bits of the exact product. -/
def aluMul (va vb : Byte) : Byte := mask8 ((va.toNat : Int) * vb.toNat)

/-- DIV for a divisor that is not zero (R83): the unsigned integer quotient, rounded down. -/
def aluDiv (va vb : Byte) : Byte := mask8 (va.toNat / vb.toNat : Nat)

/-- MOD for a divisor that is not zero (R84): the unsigned remainder. -/
def aluMod (va vb : Byte) : Byte := mask8 (va.toNat % vb.toNat : Nat)

/-- INC (R85). -/
def aluInc (va : Byte) : Byte := mask8 ((va.toNat : Int) + 1)

/-- DEC (R86). -/
def aluDec (va : Byte) : Byte := mask8 ((va.toNat : Int) - 1)

/-- AND (R87). -/
def aluAnd (va vb : Byte) : Byte := mask8 (va.toNat &&& vb.toNat : Nat)

/-- OR (R88). -/
def aluOr (va vb : Byte) : Byte := mask8 (va.toNat ||| vb.toNat : Nat)

/-- XOR (R89). -/
def aluXor (va vb : Byte) : Byte := mask8 (va.toNat ^^^ vb.toNat : Nat)

/-- NOT (R90): the complement `~n` of the integer, which is `-n - 1`, masked. -/
def aluNot (va : Byte) : Byte := mask8 (-(va.toNat : Int) - 1)

/-- SHL (R91): the whole byte `vb` is the amount, on unbounded integers, then masked. -/
def aluShl (va vb : Byte) : Byte := mask8 (va.toNat <<< vb.toNat : Nat)

/-- SHR (R92): `value_a >> value_b`, logical, the whole byte `vb` the amount. -/
def aluShr (va vb : Byte) : Byte := mask8 (va.toNat >>> vb.toNat : Nat)

/-- `apply(operation, value_a, value_b)` (R94). INC, DEC and NOT ignore `value_b`; DIV and MOD raise DivisionByZero with
their opcode when `value_b` is 0 (R83, R84). Every operation is one of the 14 (R96). -/
def Alu.apply (f : AluOp) (va vb : Byte) : Except Fault AluOut :=
  match f with
  | .add => .ok (.result (aluAdd va vb))
  | .sub => .ok (.result (aluSub va vb))
  | .mul => .ok (.result (aluMul va vb))
  | .div => if vb.toNat = 0 then .error (.divisionByZero 0xA3#8) else .ok (.result (aluDiv va vb))
  | .mod => if vb.toNat = 0 then .error (.divisionByZero 0xA4#8) else .ok (.result (aluMod va vb))
  | .inc => .ok (.result (aluInc va))
  | .dec => .ok (.result (aluDec va))
  | .cmp => .ok (.flags (compareFlags va vb))
  | .and => .ok (.result (aluAnd va vb))
  | .or => .ok (.result (aluOr va vb))
  | .xor => .ok (.result (aluXor va vb))
  | .not => .ok (.result (aluNot va))
  | .shl => .ok (.result (aluShl va vb))
  | .shr => .ok (.result (aluShr va vb))

/-- What the engine does with the ALU's answer (40_fetch_execute_cycle.md R69): a result goes to `x[ra]`, a flags update
to FL. -/
def writeAlu (ra : RegIndex) (s : State) : AluOut → State
  | .result v => s.writeReg ra v.toNat
  | .flags fl => s.writeFl fl

/-- A two-register ALU instruction (R94): both registers are read before anything is written. -/
def aluTwo (o : Op) (f : AluOp) (a b : Byte) (s : State) : Host.Outcome State Fault Refusal :=
  withRegs o a b s fun ra rb => do
    let out ← Alu.apply f (s.readReg ra) (s.readReg rb)
    return writeAlu ra s out

/-- A one-register ALU instruction (R94, 90_conflicts.md C5): no second register is read or checked, and the ALU's second
input, which the operation ignores, is given as 0. -/
def aluOne (o : Op) (f : AluOp) (a : Byte) (s : State) : Host.Outcome State Fault Refusal :=
  withReg o a s fun ra => do
    let out ← Alu.apply f (s.readReg ra) 0#8
    return writeAlu ra s out

/-- INC (R85). -/
def execInc (a : Byte) (s : State) : Host.Outcome State Fault Refusal := aluOne .inc .inc a s

/-- DEC (R86). -/
def execDec (a : Byte) (s : State) : Host.Outcome State Fault Refusal := aluOne .dec .dec a s

/-- NOT (R90). -/
def execNot (a : Byte) (s : State) : Host.Outcome State Fault Refusal := aluOne .not .not a s

/-- ADD (R80). -/
def execAdd (a b : Byte) (s : State) : Host.Outcome State Fault Refusal := aluTwo .add .add a b s

/-- SUB (R81). -/
def execSub (a b : Byte) (s : State) : Host.Outcome State Fault Refusal := aluTwo .sub .sub a b s

/-- MUL (R82). -/
def execMul (a b : Byte) (s : State) : Host.Outcome State Fault Refusal := aluTwo .mul .mul a b s

/-- DIV (R83). -/
def execDiv (a b : Byte) (s : State) : Host.Outcome State Fault Refusal := aluTwo .div .div a b s

/-- MOD (R84). -/
def execMod (a b : Byte) (s : State) : Host.Outcome State Fault Refusal := aluTwo .mod .mod a b s

/-- CMP (R93). -/
def execCmp (a b : Byte) (s : State) : Host.Outcome State Fault Refusal := aluTwo .cmp .cmp a b s

/-- AND (R87). -/
def execAnd (a b : Byte) (s : State) : Host.Outcome State Fault Refusal := aluTwo .and .and a b s

/-- OR (R88). -/
def execOr (a b : Byte) (s : State) : Host.Outcome State Fault Refusal := aluTwo .or .or a b s

/-- XOR (R89). -/
def execXor (a b : Byte) (s : State) : Host.Outcome State Fault Refusal := aluTwo .xor .xor a b s

/-- SHL (R91). -/
def execShl (a b : Byte) (s : State) : Host.Outcome State Fault Refusal := aluTwo .shl .shl a b s

/-- SHR (R92). -/
def execShr (a b : Byte) (s : State) : Host.Outcome State Fault Refusal := aluTwo .shr .shr a b s

end Sys2Proof.Machine
end

