-- ==== Sys2Proof/Machine/Control.lean ====
section
/-! DEFINITION. The meanings of the jumps, CALL and RET (spec/43_control_transfer.md R110 to R121). The opcodes have
bit 4 = 1, so each meaning writes PC itself in every case. -/

namespace Sys2Proof.Machine

/-- JMP (R111). -/
def execJmp (a : Byte) (s : State) : Host.Outcome State Fault Refusal :=
  withReg .jmp a s fun ra => .ok (s.writePc (target s ra))

/-- The body of the six conditional jumps (R121); the operand is checked whether or not the jump is taken. -/
def jumpIf (o : Op) (cond : Byte → Bool) (a : Byte) (s : State) : Host.Outcome State Fault Refusal :=
  withReg o a s fun ra => .ok (s.writePc (if cond s.fl then target s ra else s.pc + 2))

/-- JEQ (R112). -/
def execJeq (a : Byte) (s : State) : Host.Outcome State Fault Refusal := jumpIf .jeq condJeq a s

/-- JNE (R113). -/
def execJne (a : Byte) (s : State) : Host.Outcome State Fault Refusal := jumpIf .jne condJne a s

/-- JGT (R114). -/
def execJgt (a : Byte) (s : State) : Host.Outcome State Fault Refusal := jumpIf .jgt condJgt a s

/-- JLT (R115). -/
def execJlt (a : Byte) (s : State) : Host.Outcome State Fault Refusal := jumpIf .jlt condJlt a s

/-- JLE (R116). -/
def execJle (a : Byte) (s : State) : Host.Outcome State Fault Refusal := jumpIf .jle condJle a s

/-- JGE (R117). -/
def execJge (a : Byte) (s : State) : Host.Outcome State Fault Refusal := jumpIf .jge condJge a s

/-- CALL (R118): push `PC + 2`, an integer the memory write refuses when it is above 255; the target register is read
after the push. -/
def execCall (a : Byte) (s : State) : Host.Outcome State Fault Refusal :=
  withReg .call a s fun ra => do
    let t ← s.push (s.pc + 2)
    return t.writePc (target t ra)

/-- RET (R119): pop the stack into PC. -/
def execRet (s : State) : Host.Outcome State Fault Refusal :=
  complete .ret s do
    let (v, t) ← s.pop
    return t.writePc v.toNat

end Sys2Proof.Machine
end

