-- ==== Sys2Proof/Machine/DataMovement.lean ====
section
/-! DEFINITION. The meanings of LDI, PUSH, POP, LD and ST (spec/42_data_movement.md R102 to R106). -/

namespace Sys2Proof.Machine

/-- LDI (R102): `x[ra] <- imm`. -/
def execLdi (a imm : Byte) (s : State) : Host.Outcome State Fault Refusal :=
  withReg .ldi a s fun ra => .ok (s.writeReg ra (immediate imm))

/-- PUSH (R103): SP is decremented, then `x[ra]` is read and written at the new SP, so that `PUSH R7` stores the new
SP. -/
def execPush (a : Byte) (s : State) : Host.Outcome State Fault Refusal :=
  withReg .push a s fun ra => s.push (s.decSp.readReg ra).toNat

/-- POP (R104): the byte at SP goes to `x[ra]`, then SP, as it then is, is incremented. -/
def execPop (a : Byte) (s : State) : Host.Outcome State Fault Refusal :=
  withReg .pop a s fun ra => do
    let v ← s.readByte s.sp.toNat
    return (s.writeReg ra v.toNat).incSp

/-- What LD does when `LDST_IMPLEMENTED` has the value given (R105, 60_exceptions.md R147). -/
def loadIndirect (implemented : Bool) (a b : Byte) (s : State) : Host.Outcome State Fault Refusal :=
  match implemented with
  | true =>
    withRegs .ld a b s fun ra rb => do
      let v ← s.readByte (indirect s rb)
      return s.writeReg ra v.toNat
  | false => complete .ld s (.error (.unsupportedOperation 0x83#8))

/-- What ST does when `LDST_IMPLEMENTED` has the value given (R106, 60_exceptions.md R147): the first operand is the
address register. -/
def storeIndirect (implemented : Bool) (a b : Byte) (s : State) : Host.Outcome State Fault Refusal :=
  match implemented with
  | true => withRegs .st a b s fun ra rb => s.storeByte (indirect s ra) (s.readReg rb).toNat
  | false => complete .st s (.error (.unsupportedOperation 0x84#8))

/-- LD (R105): `x[ra] <- MemRead(x[rb], 1)`. -/
def execLd (a b : Byte) (s : State) : Host.Outcome State Fault Refusal :=
  loadIndirect Config.ldstImplemented a b s

/-- ST (R106): `MemWrite(x[ra], 1, x[rb])`. -/
def execSt (a b : Byte) (s : State) : Host.Outcome State Fault Refusal :=
  storeIndirect Config.ldstImplemented a b s

end Sys2Proof.Machine
end

