-- ==== Sys2Proof/Machine/System.lean ====
section
/-! DEFINITION. The meanings of NOP, HLT, PRN, PRA, INT and IRET (spec/44_system.md R125 to R131). -/

namespace Sys2Proof.Machine

/-- NOP (R125): nothing but the PC advance. -/
def execNop (s : State) : Host.Outcome State Fault Refusal := complete .nop s (.ok s)

/-- HLT (R126): `RUN <- Halted`; PC is not advanced (40_fetch_execute_cycle.md R70). -/
def execHlt (s : State) : Host.Outcome State Fault Refusal := complete .hlt s (.ok s.halt)

/-- PRN (R127): `emit Dec(x[ra])`. -/
def execPrn (a : Byte) (s : State) : Host.Outcome State Fault Refusal :=
  withReg .prn a s fun ra => .ok (s.emit (.dec (s.readReg ra)))

/-- PRA (R128): `emit Chr(x[ra])`. -/
def execPra (a : Byte) (s : State) : Host.Outcome State Fault Refusal :=
  withReg .pra a s fun ra => .ok (s.emit (.chr (s.readReg ra)))

/-- INT (R129): takes UnsupportedOperation(0x52), before its operand is checked. -/
def execInt (_a : Byte) (s : State) : Host.Outcome State Fault Refusal :=
  complete .int s (.error (.unsupportedOperation 0x52#8))

/-- IRET (R130): takes UnsupportedOperation(0x13). It pops nothing. -/
def execIret (s : State) : Host.Outcome State Fault Refusal :=
  complete .iret s (.error (.unsupportedOperation 0x13#8))

end Sys2Proof.Machine
end

