-- ==== Sys2Proof/Machine/Fetch.lean ====
section
/-! DEFINITION. Stages 1 to 4 of the step up to the call of the instruction's meaning (spec/40_fetch_execute_cycle.md R65
to R69), and placing a program's bytes where the next fetch finds them. -/

namespace Sys2Proof.Machine

/-- What the fetch, decode and lookup stages end in. -/
inductive Fetched where
  /-- An instruction to execute, in the state with IR written. -/
  | run (i : Instr) (s : State)
  /-- A fault was raised; this is the state after it. -/
  | faulted (s : State)
  deriving DecidableEq, Repr

/-- Operand byte number `k`, at PC+k, if the opcode byte asks for it (R68: "never read more than needed"); one that is not
fetched is given as 0, which `build` does not use. -/
def fetchOperand (op : Byte) (k : Nat) (s : State) : Except Fault Byte :=
  if k ≤ fetchCount op then s.readByte (s.pc + k) else .ok 0#8

/-- Stage 3 (R68): `a` at PC+1, then `b` at PC+2, only as many as the opcode byte asks for, at most two. -/
def fetchOperands (op : Byte) (s : State) : Except Fault (Byte × Byte) := do
  let a ← fetchOperand op 1 s
  let b ← fetchOperand op 2 s
  return (a, b)

/-- Stages 3 and 4 up to the table lookup (R68, R69), IR already written: operand fetch faults come before
UnknownOpcode (60_exceptions.md R151). -/
def fetchRest (op : Byte) (s : State) : Fetched :=
  match fetchOperands op s with
  | .error f => .faulted (raise f s)
  | .ok (a, b) =>
    match lookup op with
    | none => .faulted (raise (.unknownOpcode op) s)
    | some o => .run (build o a b) s

/-- Stages 1 to 4 (R65, R66): `op <- MemRead(PC, 1)`, then IR is written. -/
def fetch (s : State) : Fetched :=
  match s.readByte s.pc with
  | .error f => .faulted (raise f s)
  | .ok op => fetchRest op (s.writeIr op)

/-- The cells from PC up overwritten with the bytes of an instruction, as far as there are cells. -/
def placeAtPc (s : State) (bytes : List Byte) : Memory :=
  s.mem.install s.pc (bytes.take (Config.memSize - s.pc))

end Sys2Proof.Machine
end

