-- ==== Sys2Proof/Machine/Step.lean ====
section
/-! DEFINITION. One step of the engine (spec/40_fetch_execute_cycle.md R65), and where the next step's instruction is
placed. -/

namespace Sys2Proof.Machine

/-- One step (R65). It is defined when RUN = Running; asked for in Halted, it is refused and nothing is executed (R71,
70_reset_and_hazards.md R176). -/
def step (s : State) : Host.Outcome State Fault Refusal :=
  match s.run with
  | .halted => .refused .halted
  | .running =>
    match fetch s with
    | .run i t => exec i t
    | .faulted t => .next t

/-- `s` with the instruction of a table word stored at PC, where `step` fetches, and the engine Running with ERR none, as
`load` leaves it (70_reset_and_hazards.md R174). On a running state only memory changes. -/
def State.withFetchWord (s : State) (nbits w : Nat) : State :=
  { s with mem := placeAtPc s (tableWordBytes nbits w), run := .running, err := none }

end Sys2Proof.Machine
end

