-- ==== Sys2Proof/Machine/Actions.lean ====
section
/-! DEFINITION. What the host may do to the core between steps and what it may read (spec/70_reset_and_hazards.md R170 to
R184, 10_state.md R21, 60_exceptions.md R148, R156). -/

namespace Sys2Proof.Machine

/-- Why `load` fails. -/
inductive LoadError where
  /-- The program image has more than 256 bytes (60_exceptions.md R148). -/
  | programTooLarge (len : Nat)
  deriving DecidableEq, Repr

/-- `load(program)` (R174): cells 0 to len-1, PC, RUN and ERR are written, nothing else. -/
def loadProgram (program : List Byte) (s : State) : Except LoadError State :=
  if program.length ≤ Config.memSize then
    .ok { s with mem := s.mem.install Config.loadBase program, pc := Config.pcReset, run := .running, err := none }
  else .error (.programTooLarge program.length)

/-- At most `k` steps, ending early when a step is refused because RUN = Halted (R176, R177;
40_fetch_execute_cycle.md R75). -/
def runFor : Nat → State → State
  | 0, s => s
  | k + 1, s =>
    match step s with
    | .next t => runFor k t
    | .fault _ => s
    | .refused _ => s

/-- The actions of the host (R175). -/
inductive Action where
  | reset
  | load (program : List Byte)
  | step
  /-- Not stepping (R177). -/
  | stop
  deriving DecidableEq, Repr

/-- What an action tells the host (R175). -/
inductive ActionResult where
  | done
  | programTooLarge (len : Nat)
  /-- A step asked for in Halted (R176). -/
  | refused
  deriving DecidableEq, Repr

/-- One action of the host: the state after it and what it tells the host (R175). -/
def act (action : Action) (s : State) : State × ActionResult :=
  match action with
  | .reset => (State.reset, .done)
  | .load program =>
    match loadProgram program s with
    | .ok t => (t, .done)
    | .error (.programTooLarge len) => (s, .programTooLarge len)
  | .step =>
    match Sys2Proof.Machine.step s with
    | .next t => (t, .done)
    | .fault _ => (s, .refused)
    | .refused _ => (s, .refused)
  | .stop => (s, .done)

/-- The trace surface: PC, FL, IR and the eight registers (10_state.md R21). -/
structure Trace where
  pc : Nat
  fl : Byte
  ir : Byte
  regs : Vector Byte 8
  deriving DecidableEq, Repr

/-- A trace read (10_state.md R21, 60_exceptions.md R156): a function of the state, which it does not change. -/
def trace (s : State) : Trace := ⟨s.pc, s.fl, s.ir, s.regs⟩

/-- The result of a run: ERR, OUT and the final state (R183). -/
def runResult (s : State) : Option Fault × List Event × State := (s.err, s.out, s)

end Sys2Proof.Machine
end

