-- ==== Sys2Proof/Safety.lean ====
section
/-! DEFINITION. What a finished and a correct run are (spec/60_exceptions.md R162), the invariant of the machine, and the
frames the statements are written with. -/

namespace Sys2Proof.Machine

/-- A program has finished (60_exceptions.md R162, 70_reset_and_hazards.md R183). -/
def State.Finished (s : State) : Prop := s.run = .halted

/-- A program has finished correctly (60_exceptions.md R162). -/
def State.FinishedCorrectly (s : State) : Prop := s.run = .halted ∧ s.err = none

/-- The data a fault record may carry (60_exceptions.md R141). -/
def Fault.legal : Fault → Prop
  | .outOfBounds addr => 256 ≤ addr ∧ addr ≤ Config.pcMax
  | .invalidRegister idx => 8 ≤ idx.toNat
  | .invalidValue v => v = 256
  | .divisionByZero op => op = 0xA3#8 ∨ op = 0xA4#8
  | .unknownOpcode op => lookup op = none
  | .unsupportedOperation op => op = 0x52#8 ∨ op = 0x13#8

/-- FL holds no flag or exactly one (10_state.md R16). -/
def FlagsLegal (fl : Byte) : Prop := fl = 0#8 ∨ fl = 1#8 ∨ fl = 2#8 ∨ fl = 4#8

/-- The invariant of the machine: every step from a state that meets it leaves a state that meets it. -/
structure Inv (s : State) : Prop where
  /-- Memory is in canonical form: 256 cells, each held once. -/
  memory : s.mem.wf = true
  /-- 10_state.md R16. -/
  flags : FlagsLegal s.fl
  /-- 10_state.md R14. -/
  counter : s.pc ≤ Config.pcMax
  /-- ERR is none when RUN = Running (10_state.md R23). -/
  record : s.run = .running → s.err = none
  /-- 60_exceptions.md R141. -/
  fault : ∀ f, s.err = some f → f.legal

/-- The state after fault entry from `s` (60_exceptions.md R150), written out: RUN and ERR, nothing else. -/
def Faulted (f : Fault) (s t : State) : Prop :=
  t.run = .halted ∧ t.err = some f ∧ t.regs = s.regs ∧ t.fl = s.fl ∧ t.pc = s.pc ∧ t.ir = s.ir ∧ t.mem = s.mem ∧
    t.out = s.out

/-- Every register but those listed holds what it held. -/
def RegsKept (except : List RegIndex) (s t : State) : Prop :=
  ∀ r, r ∉ except → t.readReg r = s.readReg r

/-- Every byte of memory but those at the addresses listed reads as it read. -/
def MemKept (except : List Nat) (s t : State) : Prop :=
  ∀ addr, addr ∉ except → memRead t.mem addr = memRead s.mem addr

/-- FL is what it was. -/
def FlagsKept (s t : State) : Prop := t.fl = s.fl

/-- IR, RUN, ERR and OUT are what they were. -/
def ControlKept (s t : State) : Prop := t.ir = s.ir ∧ t.run = s.run ∧ t.err = s.err ∧ t.out = s.out

/-- The frame of an instruction that writes the registers listed, the PC, and nothing else. -/
def WritesOnlyRegs (except : List RegIndex) (s t : State) : Prop :=
  RegsKept except s t ∧ FlagsKept s t ∧ MemKept [] s t ∧ ControlKept s t

/-- The instruction, in `s`, takes the fault: its next state is fault entry from `s`. -/
def Takes (i : Instr) (f : Fault) (s : State) : Prop :=
  ∃ t, exec i s = .next t ∧ Faulted f s t

/-- A register operand above 7 takes InvalidRegister (30_encoding.md R56), for an instruction with one. That it
halts the engine is the spec's decision D6, that nothing else is kept its decision D2. -/
def ChecksOne (mk : Byte → Instr) : Prop :=
  ∀ (s : State) (a : Byte), 8 ≤ a.toNat → Takes (mk a) (.invalidRegister a) s

/-- Register operands above 7 take InvalidRegister, `a` before `b` (30_encoding.md R56), for an instruction with two. That
it halts the engine is the spec's decision D6, that nothing else is kept its decision D2, the order its decision D8. -/
def ChecksTwo (mk : Byte → Byte → Instr) : Prop :=
  ∀ (s : State) (a b : Byte),
    (8 ≤ a.toNat → Takes (mk a b) (.invalidRegister a) s) ∧
    (a.toNat < 8 → 8 ≤ b.toNat → Takes (mk a b) (.invalidRegister b) s)

/-- In every running state `x[ra]` gets `f x[ra] x[rb]`, PC moves past three bytes, and nothing else changes. -/
def ResultTwo (mk : Byte → Byte → Instr) (f : Nat → Nat → Nat) : Prop :=
  ∀ (s : State) (ra rb : RegIndex), s.run = .running →
    ∃ t, exec (mk (regByte ra) (regByte rb)) s = .next t ∧
      (t.readReg ra).toNat = f (s.readReg ra).toNat (s.readReg rb).toNat ∧
      t.pc = s.pc + 3 ∧ WritesOnlyRegs [ra] s t

/-- In every running state `x[ra]` gets `f x[ra]`, PC moves past two bytes, and nothing else changes. -/
def ResultOne (mk : Byte → Instr) (f : Nat → Nat) : Prop :=
  ∀ (s : State) (ra : RegIndex), s.run = .running →
    ∃ t, exec (mk (regByte ra)) s = .next t ∧
      (t.readReg ra).toNat = f (s.readReg ra).toNat ∧
      t.pc = s.pc + 2 ∧ WritesOnlyRegs [ra] s t

/-- A conditional jump of R121: to `x[ra]` when `taken` holds of FL, to PC+2 when it does not; it writes PC only. -/
def JumpsWhen (mk : Byte → Instr) (taken : Byte → Prop) : Prop :=
  ∀ (s : State) (ra : RegIndex), s.run = .running →
    ∃ t, exec (mk (regByte ra)) s = .next t ∧
      (taken s.fl → t.pc = (s.readReg ra).toNat) ∧ (¬ taken s.fl → t.pc = s.pc + 2) ∧
      WritesOnlyRegs [] s t

/-- The bytes of memory from `pc` up to the last cell. -/
def bytesFrom (m : Memory) (pc : Nat) : List Byte :=
  (List.range' pc (Config.memSize - pc)).map m.get

/-- The byte at an address, as `MemRead` gives it. -/
def ByteAt (s : State) (addr : Nat) (v : Byte) : Prop := memRead s.mem addr = .ok v

/-- The unknown opcode bytes as 30_encoding.md R57 lists them. -/
def UnknownByte (op : Byte) : Prop :=
  let n := op.toNat
  (0x02 ≤ n ∧ n ≤ 0x10) ∨ n = 0x12 ∨ (0x14 ≤ n ∧ n ≤ 0x44) ∨ (0x49 ≤ n ∧ n ≤ 0x4F) ∨ n = 0x51 ∨ n = 0x53 ∨
  (0x5B ≤ n ∧ n ≤ 0x64) ∨ n = 0x67 ∨ n = 0x68 ∨ (0x6A ≤ n ∧ n ≤ 0x81) ∨ (0x85 ≤ n ∧ n ≤ 0x9F) ∨ n = 0xA5 ∨
  n = 0xA6 ∨ n = 0xA9 ∨ (0xAE ≤ n ∧ n ≤ 0xFF)

/-- How many operand bytes an opcode byte makes the engine fetch: its two top bits, at most 2 (30_encoding.md R52). -/
def operandBytes (op : Byte) : Nat := min (op.toNat / 64) 2

end Sys2Proof.Machine
end

