-- ==== Sys2Proof/Certificates/Slice0/Obligations.lean ====
section
/-! DEFINITION. The statements about the model, for the provers. Each docstring names the rule or the section of spec/ it
rests on; where the spec marks what it says as a decision of its own (92_eei_decisions.md), the docstring names it. In
every statement the clause that a register operand above 7 takes InvalidRegister rests on the spec's decisions D6 (it
halts the engine), D2 (nothing else is kept) and, with two operands, D8 (`a` before `b`), log entry 1; such a statement is
derived. -/

open Sys2Proof Sys2Proof.Machine

/-! ## ALU -/

/-- R80, R81, R82: ADD, SUB and MUL write the exact result modulo 256 to `x[ra]`, for every pair of registers, the same
one twice included; no flag. The clause that a register operand above 7 takes InvalidRegister, `a` before `b`, rests on
the spec's decisions D6, D2 and D8 (log entry 1). -/
def Obligations.AddSubMulWrapModulo256 : Prop :=
  (∀ a b, encode (.add a b) = [0xA0#8, a, b] ∧ encode (.sub a b) = [0xA1#8, a, b] ∧
    encode (.mul a b) = [0xA2#8, a, b]) ∧
  ResultTwo .add (fun va vb => (va + vb) % 256) ∧
  ResultTwo .sub (fun va vb => (va + 256 - vb) % 256) ∧
  ResultTwo .mul (fun va vb => va * vb % 256) ∧
  ChecksTwo .add ∧ ChecksTwo .sub ∧ ChecksTwo .mul

/-- R87, R88, R89: AND, OR and XOR are the bitwise operations on the two bytes. The clause that a register operand above
7 takes InvalidRegister, `a` before `b`, rests on the spec's decisions D6, D2 and D8 (log entry 1). -/
def Obligations.AndOrXorAreBitwise : Prop :=
  (∀ a b, encode (.and a b) = [0xA8#8, a, b] ∧ encode (.or a b) = [0xAA#8, a, b] ∧
    encode (.xor a b) = [0xAB#8, a, b]) ∧
  ResultTwo .and (fun va vb => va &&& vb) ∧
  ResultTwo .or (fun va vb => va ||| vb) ∧
  ResultTwo .xor (fun va vb => va ^^^ vb) ∧
  ChecksTwo .and ∧ ChecksTwo .or ∧ ChecksTwo .xor

/-- R91, R92: the shift amount is the whole byte `x[rb]`, 0 to 255, with no reduction; SHL keeps the low 8 bits, SHR is
logical and shifts `x[ra]` by `x[rb]`. The clause that a register operand above 7 takes InvalidRegister, `a` before `b`,
rests on the spec's decisions D6, D2 and D8 (log entry 1). -/
def Obligations.ShiftsUseTheWholeAmount : Prop :=
  (∀ a b, encode (.shl a b) = [0xAC#8, a, b] ∧ encode (.shr a b) = [0xAD#8, a, b]) ∧
  ResultTwo .shl (fun va vb => va * 2 ^ vb % 256) ∧
  ResultTwo .shr (fun va vb => va / 2 ^ vb) ∧
  ChecksTwo .shl ∧ ChecksTwo .shr

/-- R85, R86, R90: INC, DEC and NOT act on one register and wrap; R94, C5: they have one operand. The clause that a
register operand above 7 takes InvalidRegister rests on the spec's decisions D6 and D2 (log entry 1). -/
def Obligations.IncDecNotActOnOneRegister : Prop :=
  (∀ a, encode (.inc a) = [0x65#8, a] ∧ encode (.dec a) = [0x66#8, a] ∧ encode (.not a) = [0x69#8, a]) ∧
  ResultOne .inc (fun va => (va + 1) % 256) ∧
  ResultOne .dec (fun va => (va + 255) % 256) ∧
  ResultOne .not (fun va => 255 - va) ∧
  ChecksOne .inc ∧ ChecksOne .dec ∧ ChecksOne .not

/-- 41_alu.md section 2, DIV and MOD with a divisor that is not zero: the quotient rounded down and the remainder (the
spec's decision D11). -/
def Obligations.DivModQuotientAndRemainder : Prop :=
  ∀ (s : State) (ra rb : RegIndex), s.run = .running → s.readReg rb ≠ 0#8 →
    (∃ t, exec (.div (regByte ra) (regByte rb)) s = .next t ∧
      (t.readReg ra).toNat = (s.readReg ra).toNat / (s.readReg rb).toNat ∧
      t.pc = s.pc + 3 ∧ WritesOnlyRegs [ra] s t) ∧
    (∃ t, exec (.mod (regByte ra) (regByte rb)) s = .next t ∧
      (t.readReg ra).toNat = (s.readReg ra).toNat % (s.readReg rb).toNat ∧
      t.pc = s.pc + 3 ∧ WritesOnlyRegs [ra] s t)

/-- R145: a zero divisor takes DivisionByZero with the opcode, whatever the dividend; the destination is not written, and
the fault is recorded in ERR and halts the engine. -/
def Obligations.DivModByZeroTakesDivisionByZero : Prop :=
  ∀ (s : State) (ra rb : RegIndex), s.readReg rb = 0#8 →
    Takes (.div (regByte ra) (regByte rb)) (.divisionByZero 0xA3#8) s ∧
    Takes (.mod (regByte ra) (regByte rb)) (.divisionByZero 0xA4#8) s

/-- 60_exceptions.md section 4: a bad register operand of DIV or MOD is reported before a zero divisor, `a` before `b`
(the spec's decision D8). -/
def Obligations.DivModCheckRegistersFirst : Prop := ChecksTwo .div ∧ ChecksTwo .mod

/-- R93: CMP replaces all three flags by the unsigned order of the two registers and writes no register. The clause that
a register operand above 7 takes InvalidRegister, `a` before `b`, rests on the spec's decisions D6, D2 and D8 (log entry
1). -/
def Obligations.CmpReplacesTheThreeFlags : Prop :=
  (∀ a b, encode (.cmp a b) = [0xA7#8, a, b]) ∧
  (∀ (s : State) (ra rb : RegIndex), s.run = .running →
    ∃ t, exec (.cmp (regByte ra) (regByte rb)) s = .next t ∧
      ((s.readReg ra).toNat < (s.readReg rb).toNat → t.fl = 0b100#8) ∧
      ((s.readReg ra).toNat > (s.readReg rb).toNat → t.fl = 0b010#8) ∧
      ((s.readReg ra).toNat = (s.readReg rb).toNat → t.fl = 0b001#8) ∧
      t.pc = s.pc + 3 ∧ RegsKept [] s t ∧ MemKept [] s t ∧ ControlKept s t) ∧
  ChecksTwo .cmp

/-! ## Data movement and the stack -/

/-- R102: LDI writes its second operand byte, any byte, to `x[ra]`; the byte is not checked as a register index. The
clause that a register operand above 7 takes InvalidRegister rests on the spec's decisions D6 and D2 (log entry 1). -/
def Obligations.LdiWritesTheImmediate : Prop :=
  (∀ a imm, encode (.ldi a imm) = [0x82#8, a, imm]) ∧
  (∀ (s : State) (ra : RegIndex) (imm : Byte), s.run = .running →
    ∃ t, exec (.ldi (regByte ra) imm) s = .next t ∧ t.readReg ra = imm ∧
      t.pc = s.pc + 3 ∧ WritesOnlyRegs [ra] s t) ∧
  (∀ imm, ChecksOne fun a => .ldi a imm)

/-- 42_data_movement.md section 3, PUSH: SP goes down by one, wrapping; the operand register, read after that, is stored
at the new SP, so that PUSH R7 stores the new SP (the spec's decision D13). -/
def Obligations.PushStoresBelowTheStack : Prop :=
  (∀ (s : State) (ra : RegIndex), s.run = .running →
    ∃ t, exec (.push (regByte ra)) s = .next t ∧
      t.sp.toNat = (s.sp.toNat + 255) % 256 ∧
      ByteAt t t.sp.toNat (if ra = Config.spIndex then t.sp else s.readReg ra) ∧
      MemKept [(s.sp.toNat + 255) % 256] s t ∧
      t.pc = s.pc + 2 ∧ RegsKept [Config.spIndex] s t ∧ FlagsKept s t ∧ ControlKept s t) ∧
  ChecksOne .push

/-- 42_data_movement.md section 3, POP: the byte at SP goes to `x[ra]`, then SP goes up by one, wrapping; POP R7 ends with
the byte plus one (the spec's decision D13). -/
def Obligations.PopLoadsFromTheStack : Prop :=
  (∀ (s : State) (ra : RegIndex) (v : Byte), s.run = .running → ByteAt s s.sp.toNat v →
    ∃ t, exec (.pop (regByte ra)) s = .next t ∧
      (ra ≠ Config.spIndex → t.readReg ra = v ∧ t.sp.toNat = (s.sp.toNat + 1) % 256) ∧
      (ra = Config.spIndex → t.sp.toNat = (v.toNat + 1) % 256) ∧
      t.pc = s.pc + 2 ∧ WritesOnlyRegs [ra, Config.spIndex] s t) ∧
  ChecksOne .pop

/-- 42_data_movement.md section 3, the round-trip law: PUSH r and then POP r2, neither of them R7, gives `x[r2]` the value
pushed and SP its value before the PUSH. -/
def Obligations.PushThenPopRoundTrip : Prop :=
  ∀ (s : State) (r r2 : RegIndex), s.run = .running → r ≠ Config.spIndex → r2 ≠ Config.spIndex →
    ∃ u t, exec (.push (regByte r)) s = .next u ∧ exec (.pop (regByte r2)) u = .next t ∧
      t.readReg r2 = s.readReg r ∧ t.sp = s.sp ∧ RegsKept [r2] s t

/-- 42_data_movement.md section 3, LD: `x[ra]` gets the byte at the address `x[rb]` (the spec's decision D9). -/
def Obligations.LdLoadsThroughTheSecondRegister : Prop :=
  (∀ (s : State) (ra rb : RegIndex) (v : Byte), s.run = .running → ByteAt s (s.readReg rb).toNat v →
    ∃ t, exec (.ld (regByte ra) (regByte rb)) s = .next t ∧ t.readReg ra = v ∧
      t.pc = s.pc + 3 ∧ WritesOnlyRegs [ra] s t) ∧
  ChecksTwo .ld

/-- 42_data_movement.md section 3, ST: `x[rb]` is stored at the address `x[ra]`, the FIRST operand; no register changes
(the spec's decision D9). -/
def Obligations.StStoresThroughTheFirstRegister : Prop :=
  (∀ (s : State) (ra rb : RegIndex), s.run = .running →
    ∃ t, exec (.st (regByte ra) (regByte rb)) s = .next t ∧
      ByteAt t (s.readReg ra).toNat (s.readReg rb) ∧ MemKept [(s.readReg ra).toNat] s t ∧
      t.pc = s.pc + 3 ∧ RegsKept [] s t ∧ FlagsKept s t ∧ ControlKept s t) ∧
  ChecksTwo .st

/-- 42_data_movement.md section 3: with `LDST_IMPLEMENTED` false LD and ST take UnsupportedOperation with their opcode
(the spec's decision D9); that this comes before the operand check is the model's reading, log entry 7. -/
def Obligations.LdStUnsupportedWithoutTheParameter : Prop :=
  ∀ (s : State) (a b : Byte),
    (∃ t, loadIndirect false a b s = .next t ∧ Faulted (.unsupportedOperation 0x83#8) s t) ∧
    (∃ t, storeIndirect false a b s = .next t ∧ Faulted (.unsupportedOperation 0x84#8) s t)

/-! ## Control transfer -/

/-- R111: JMP sets PC to `x[ra]`; nothing else changes. The clause that a register operand above 7 takes InvalidRegister
rests on the spec's decisions D6 and D2 (log entry 1). -/
def Obligations.JmpGoesToTheRegister : Prop :=
  (∀ a, encode (.jmp a) = [0x54#8, a]) ∧
  (∀ (s : State) (ra : RegIndex), s.run = .running →
    ∃ t, exec (.jmp (regByte ra)) s = .next t ∧ t.pc = (s.readReg ra).toNat ∧ WritesOnlyRegs [] s t) ∧
  ChecksOne .jmp

/-- 43_control_transfer.md section 1: the six conditional jumps as tests of FL, on every value of FL, and their operand
checked whether taken or not (the spec's decisions D12 and D8). -/
def Obligations.ConditionalJumpsFollowTheTruthTable : Prop :=
  JumpsWhen .jeq (fun fl => fl &&& 1#8 ≠ 0#8) ∧
  JumpsWhen .jne (fun fl => fl &&& 1#8 = 0#8) ∧
  JumpsWhen .jgt (fun fl => fl &&& 2#8 ≠ 0#8) ∧
  JumpsWhen .jlt (fun fl => fl &&& 4#8 ≠ 0#8) ∧
  JumpsWhen .jle (fun fl => fl &&& 5#8 ≠ 0#8) ∧
  JumpsWhen .jge (fun fl => fl &&& 3#8 ≠ 0#8) ∧
  ChecksOne .jeq ∧ ChecksOne .jne ∧ ChecksOne .jgt ∧ ChecksOne .jlt ∧ ChecksOne .jle ∧ ChecksOne .jge

/-- 43_control_transfer.md section 1: after `CMP Ra,Rb` each conditional jump is taken exactly when the unsigned order of
the two registers is the one its mnemonic names (the spec's decision D12). -/
def Obligations.CompareThenJumpFollowsUnsignedOrder : Prop :=
  ∀ (s u : State) (ra rb rt : RegIndex), s.run = .running →
    exec (.cmp (regByte ra) (regByte rb)) s = .next u →
    let va := (s.readReg ra).toNat
    let vb := (s.readReg rb).toNat
    let goes := fun (i : Instr) (taken : Prop) => ∃ t, exec i u = .next t ∧
      (taken → t.pc = (s.readReg rt).toNat) ∧ (¬ taken → t.pc = s.pc + 5)
    goes (.jeq (regByte rt)) (va = vb) ∧ goes (.jne (regByte rt)) (va ≠ vb) ∧
    goes (.jgt (regByte rt)) (va > vb) ∧ goes (.jlt (regByte rt)) (va < vb) ∧
    goes (.jle (regByte rt)) (va ≤ vb) ∧ goes (.jge (regByte rt)) (va ≥ vb)

/-- 43_control_transfer.md section 2, CALL with a return address that fits in a byte: `PC + 2` is stored at the
decremented SP, and PC gets the target register as it is after the push, so that CALL R7 goes to the new SP (the spec's
decision D13). -/
def Obligations.CallPushesTheReturnAddress : Prop :=
  (∀ (s : State) (ra : RegIndex), s.run = .running → s.pc + 2 ≤ 255 →
    ∃ t, exec (.call (regByte ra)) s = .next t ∧
      t.sp.toNat = (s.sp.toNat + 255) % 256 ∧
      ByteAt t t.sp.toNat (BitVec.ofNat 8 (s.pc + 2)) ∧
      MemKept [(s.sp.toNat + 255) % 256] s t ∧
      t.pc = (if ra = Config.spIndex then t.sp else s.readReg ra).toNat ∧
      RegsKept [Config.spIndex] s t ∧ FlagsKept s t ∧ ControlKept s t) ∧
  ChecksOne .call

/-- 43_control_transfer.md section 2, CALL with a return address above 255: the memory write refuses it and nothing is
pushed; in a run the address is 256, the CALL being at 254 (the spec's decisions D7 and D2). -/
def Obligations.CallAtTheTopTakesInvalidValue : Prop :=
  (∀ (s : State) (ra : RegIndex), 256 ≤ s.pc + 2 →
    Takes (.call (regByte ra)) (.invalidValue (s.pc + 2)) s) ∧
  (∀ (s : State) (ra : RegIndex), s.run = .running → s.pc = 254 →
    ByteAt s 254 0x50#8 → ByteAt s 255 (regByte ra) →
    ∃ t, step s = .next t ∧ t.err = some (.invalidValue 256) ∧ t.run = .halted ∧ t.pc = 254 ∧ t.sp = s.sp ∧
      MemKept [] s t)

/-- R119: RET pops the byte at SP into PC and takes no fault; and a CALL followed, after code that leaves SP and the
stacked byte as it found them, by a RET goes on behind the CALL with SP restored. -/
def Obligations.RetPopsIntoPcAndUndoesCall : Prop :=
  encode .ret = [0x11#8] ∧
  (∀ (s : State) (v : Byte), s.run = .running → ByteAt s s.sp.toNat v →
    ∃ t, exec .ret s = .next t ∧ t.pc = v.toNat ∧ t.sp.toNat = (s.sp.toNat + 1) % 256 ∧
      WritesOnlyRegs [Config.spIndex] s t) ∧
  (∀ (s u w : State) (ra : RegIndex), s.run = .running → s.pc + 2 ≤ 255 →
    exec (.call (regByte ra)) s = .next u → w.run = .running → w.sp = u.sp →
    memRead w.mem u.sp.toNat = memRead u.mem u.sp.toNat →
    ∃ t, exec .ret w = .next t ∧ t.pc = s.pc + 2 ∧ t.sp = s.sp)

/-! ## System instructions -/

/-- R125: NOP changes nothing but PC (and, as every step, IR); and in a running state whose memory from PC on is zero
the engine executes NOPs up to address 255, then PC is 256 and the next step takes OutOfBounds(256). -/
def Obligations.NopAdvancesAndRunsOffTheEnd : Prop :=
  encode .nop = [0x00#8] ∧
  (∀ s : State, s.run = .running →
    ∃ t, exec .nop s = .next t ∧ t.pc = s.pc + 1 ∧ WritesOnlyRegs [] s t) ∧
  (∀ s : State, s.run = .running → ByteAt s s.pc 0x00#8 →
    ∃ t, step s = .next t ∧ t.ir = 0x00#8 ∧ t.pc = s.pc + 1) ∧
  (∀ s : State, s.run = .running → s.pc ≤ 256 → (∀ addr, s.pc ≤ addr → addr ≤ 255 → ByteAt s addr 0x00#8) →
    ∃ t u, runFor (256 - s.pc) s = t ∧ t.run = .running ∧ t.pc = 256 ∧ WritesOnlyRegs [] { s with ir := t.ir } t ∧
      step t = .next u ∧ Faulted (.outOfBounds 256) t u)

/-- 44_system.md section 1, HLT: RUN becomes Halted, PC stays at the HLT, ERR stays what it was, and the next step asked
for is refused (the spec's decision D4, conflict C1). -/
def Obligations.HltHaltsInPlace : Prop :=
  ∀ s : State, s.run = .running →
    ∃ t, exec .hlt s = .next t ∧ t.run = .halted ∧ t.pc = s.pc ∧ t.err = s.err ∧ t.ir = s.ir ∧ t.out = s.out ∧
      RegsKept [] s t ∧ FlagsKept s t ∧ MemKept [] s t ∧ step t = .refused .halted

/-- 44_system.md section 1, PRN and PRA: one event with the byte of the register goes to the end of OUT; nothing else
changes but PC (the spec's decision D17 for the form of OUT). -/
def Obligations.PrintsAppendOneEvent : Prop :=
  (∀ (s : State) (ra : RegIndex), s.run = .running →
    (∃ t, exec (.prn (regByte ra)) s = .next t ∧ t.out = s.out ++ [.dec (s.readReg ra)] ∧ t.pc = s.pc + 2 ∧
      RegsKept [] s t ∧ FlagsKept s t ∧ MemKept [] s t ∧ t.ir = s.ir ∧ t.run = s.run ∧ t.err = s.err) ∧
    (∃ t, exec (.pra (regByte ra)) s = .next t ∧ t.out = s.out ++ [.chr (s.readReg ra)] ∧ t.pc = s.pc + 2 ∧
      RegsKept [] s t ∧ FlagsKept s t ∧ MemKept [] s t ∧ t.ir = s.ir ∧ t.run = s.run ∧ t.err = s.err)) ∧
  ChecksOne .prn ∧ ChecksOne .pra

/-- 44_system.md section 1, INT and IRET: they take UnsupportedOperation with their opcode, INT whatever its operand byte
is (the spec's decision D10). -/
def Obligations.IntAndIretTakeUnsupportedOperation : Prop :=
  ∀ (s : State) (a : Byte),
    Takes (.int a) (.unsupportedOperation 0x52#8) s ∧ Takes .iret (.unsupportedOperation 0x13#8) s

/-! ## Encoding -/

/-- 30_encoding.md section 1: decoding the bytes of any instruction, whatever follows them, gives it back with every
operand byte, and leaves what follows. -/
def Obligations.EncodeThenDecodeIsIdentity : Prop :=
  ∀ (i : Instr) (rest : List Byte), decode (encode i ++ rest) = .ok (i, rest)

/-- 30_encoding.md sections 1 and 4: each byte sequence has one reading; what the decoder accepts is the encoding of what
it gives, followed by the bytes it leaves. -/
def Obligations.DecodeThenEncodeIsIdentity : Prop :=
  ∀ (bytes rest : List Byte) (i : Instr), decode bytes = .ok (i, rest) → bytes = encode i ++ rest

/-- 30_encoding.md section 4: words written out bit by bit from the table, one of every format and family. -/
def Obligations.SampleWordsDecode : Prop :=
  decode [0b10000010#8, 0x00#8, 0x08#8] = .ok (.ldi 0x00#8 0x08#8, []) ∧
  decode [0b01000111#8, 0x00#8] = .ok (.prn 0x00#8, []) ∧
  decode [0b00000001#8] = .ok (.hlt, []) ∧
  decode [0b10100000#8, 0x00#8, 0x01#8] = .ok (.add 0x00#8 0x01#8, []) ∧
  decode [0b01010000#8, 0x01#8] = .ok (.call 0x01#8, []) ∧
  decode [0b10000100#8, 0x00#8, 0x01#8] = .ok (.st 0x00#8 0x01#8, [])

/-- R146: an opcode byte that 30_encoding.md lists as unknown takes UnknownOpcode from the dispatch stage, IR holding
the byte, when the operand bytes its two top bits call for lie in memory, and OutOfBounds before that when they do not;
a byte that is not listed never takes UnknownOpcode. That at most two operand bytes are called for when the two top bits
are 3 is R52, the spec's decision D15, and the state after the fault its decision D2 (log entry 1). -/
def Obligations.UnknownOpcodeBytesFault : Prop :=
  ∀ (s : State) (op : Byte), s.run = .running → s.err = none → ByteAt s s.pc op →
    (UnknownByte op → s.pc + operandBytes op ≤ 255 →
      ∃ t, step s = .next t ∧ Faulted (.unknownOpcode op) { s with ir := op } t) ∧
    (UnknownByte op → 256 ≤ s.pc + operandBytes op →
      ∃ t, step s = .next t ∧ Faulted (.outOfBounds 256) { s with ir := op } t) ∧
    (¬ UnknownByte op → ∀ t byte, step s = .next t → t.err ≠ some (.unknownOpcode byte))

/-! ## The step -/

/-- 40_fetch_execute_cycle.md section 1: when the bytes from PC up decode to an instruction, a step of the running engine
is that instruction's execution in the state with IR holding its opcode byte. -/
def Obligations.StepRunsTheDecodedInstruction : Prop :=
  ∀ (s : State) (i : Instr) (rest : List Byte), s.run = .running → decode (bytesFrom s.mem s.pc) = .ok (i, rest) →
    step s = exec i { s with ir := i.op.opcode }

/-- 60_exceptions.md sections 2 and 4: the three fetch faults, in their order: on the opcode (IR not written), on the
first operand byte at 256, on the second at 256; and only a fetch raises OutOfBounds. -/
def Obligations.FetchFaultsInStageOrder : Prop :=
  (∀ s : State, s.run = .running → 256 ≤ s.pc → ∃ t, step s = .next t ∧ Faulted (.outOfBounds s.pc) s t) ∧
  (∀ (s : State) (op : Byte), s.run = .running → s.pc = 255 → ByteAt s s.pc op → 1 ≤ operandBytes op →
    ∃ t, step s = .next t ∧ Faulted (.outOfBounds 256) { s with ir := op } t) ∧
  (∀ (s : State) (op : Byte), s.run = .running → s.pc = 254 → ByteAt s s.pc op → 2 ≤ operandBytes op →
    ∃ t, step s = .next t ∧ Faulted (.outOfBounds 256) { s with ir := op } t) ∧
  (∀ (s t : State) (op : Byte) (addr : Nat), s.run = .running → s.err = none → ByteAt s s.pc op →
    s.pc + operandBytes op ≤ 255 → step s = .next t → t.err ≠ some (.outOfBounds addr))

/-- R72, first sentence, and R71: a step of the running engine always answers a next state, an instruction always does,
and a step in Halted is refused. -/
def Obligations.RunningAnswersAndHaltedRefuses : Prop :=
  (∀ s : State, s.run = .running → ∃ t, step s = .next t) ∧
  (∀ (i : Instr) (s : State), ∃ t, exec i s = .next t) ∧
  (∀ s : State, s.run = .halted → step s = .refused .halted)

/-- 60_exceptions.md section 3: whatever the fault, the state after the step is the state before it but for RUN, ERR and
IR, and IR holds the opcode byte when there was one to fetch (the spec's decision D2). -/
def Obligations.FaultingStepKeepsEverything : Prop :=
  ∀ (s t : State) (f : Fault), s.run = .running → s.err = none → step s = .next t → t.err = some f →
    t.run = .halted ∧ t.pc = s.pc ∧ t.fl = s.fl ∧ t.out = s.out ∧ RegsKept [] s t ∧ MemKept [] s t ∧
      (256 ≤ s.pc → t.ir = s.ir) ∧ (∀ op, ByteAt s s.pc op → t.ir = op)

/-- R15: PC after a step: an opcode with bit 4 = 0 that leaves the engine Running moves it past the instruction; one
with bit 4 = 1 sets it itself, to the popped byte (RET), to the operand register's value, or, not taken, to PC+2; HLT
and every fault leave it; reset and `load` set it to 0. Where an opcode with bit 4 = 1 goes is R110, R118, R119 and
R121; that CALL reads its target register after the push (CALL R7) is the spec's decision D13, PC after HLT its decision
D4 and PC after a fault its decision D2 (log entry 1). -/
def Obligations.PcAdvancesUnlessTheOpcodeSetsIt : Prop :=
  (∀ (s t : State) (op : Byte), s.run = .running → ByteAt s s.pc op → step s = .next t → t.run = .running →
    op.getLsbD 4 = false → t.pc = s.pc + 1 + op.toNat / 64) ∧
  (∀ (s t : State) (op : Byte), s.run = .running → ByteAt s s.pc op → step s = .next t → t.run = .running →
    op.getLsbD 4 = true →
    (op = 0x11#8 ∧ ByteAt s s.sp.toNat (BitVec.ofNat 8 t.pc) ∧ t.pc ≤ 255) ∨
    (∃ ra : RegIndex, ByteAt s (s.pc + 1) (regByte ra) ∧ (t.pc = (t.readReg ra).toNat ∨ t.pc = s.pc + 2))) ∧
  (∀ s t : State, s.run = .running → step s = .next t → t.run = .halted → t.pc = s.pc) ∧
  State.reset.pc = 0 ∧
  (∀ (program : List Byte) (s t : State), loadProgram program s = .ok t → t.pc = 0)

/-- 10_state.md section 2: no completed step leaves PC above 256 (a bound tighter than the 258 the spec allows; the
model's own deduction, log entry 6). -/
def Obligations.CompletedStepLeavesPcAtMost256 : Prop :=
  ∀ s t : State, s.run = .running → s.err = none → step s = .next t → t.err = none → t.pc ≤ 256

/-! ## Rules of the whole machine -/

/-- Every step from a state that meets the invariant leaves one that does: memory canonical, FL 0, 1, 2 or 4, PC at most
258, ERR none while Running, and a fault record only with the data 60_exceptions.md gives it (10_state.md, 60_exceptions.md
section 1). -/
def Obligations.StepKeepsTheInvariant : Prop :=
  ∀ s t : State, Inv s → step s = .next t → Inv t

/-- The reset state meets the invariant. -/
def Obligations.ResetMeetsTheInvariant : Prop := Inv State.reset

/-- The host's `load` keeps the invariant, and so does every action of the host (70_reset_and_hazards.md section 4). -/
def Obligations.HostActionsKeepTheInvariant : Prop :=
  ∀ (action : Action) (s : State), Inv s → Inv (act action s).1

/-- 10_state.md section 3: only CMP changes FL. -/
def Obligations.OnlyCmpChangesFlags : Prop :=
  ∀ s t : State, s.run = .running → step s = .next t → t.fl ≠ s.fl → ByteAt s s.pc 0xA7#8

/-- 20_memory.md section 4: a step changes at most one byte of memory, and only a PUSH or a CALL, at the decremented SP,
or an ST, at the address in the register its first operand byte names, changes one. -/
def Obligations.OnlyStoresChangeMemory : Prop :=
  ∀ (s t : State) (addr : Nat), s.run = .running → step s = .next t → memRead t.mem addr ≠ memRead s.mem addr →
    ((ByteAt s s.pc 0x45#8 ∨ ByteAt s s.pc 0x50#8) ∧ addr = (s.sp.toNat + 255) % 256) ∨
    (ByteAt s s.pc 0x84#8 ∧ ∃ ra : RegIndex, ByteAt s (s.pc + 1) (regByte ra) ∧ addr = (s.readReg ra).toNat)

/-- 10_state.md section 7: OUT only grows at its end, by at most one event, and only under PRN or PRA. -/
def Obligations.OnlyPrintsChangeOutput : Prop :=
  ∀ s t : State, s.run = .running → step s = .next t →
    t.out = s.out ∨ (∃ v, ByteAt s s.pc 0x47#8 ∧ t.out = s.out ++ [.dec v]) ∨
      (∃ v, ByteAt s s.pc 0x48#8 ∧ t.out = s.out ++ [.chr v])

/-- 10_state.md section 1: a register changes only when the first operand byte names it, or when it is R7 under PUSH, POP,
CALL or RET; so the hardware never changes R5 or R6 on its own. -/
def Obligations.RegistersChangeOnlyWhenNamed : Prop :=
  ∀ (s t : State) (r : RegIndex), s.run = .running → step s = .next t → t.readReg r ≠ s.readReg r →
    ByteAt s (s.pc + 1) (regByte r) ∨
      (r = Config.spIndex ∧ (ByteAt s s.pc 0x45#8 ∨ ByteAt s s.pc 0x46#8 ∨ ByteAt s s.pc 0x50#8 ∨ ByteAt s s.pc 0x11#8))

/-- 60_exceptions.md section 5: the values of R5 and R6 have no effect on an instruction whose register operands do not
name them: replacing the value before it replaces the value after it, and nothing else. It holds of every register but
R7. -/
def Obligations.UnnamedRegistersAreInert : Prop :=
  ∀ (i : Instr) (s t : State) (r : RegIndex) (v : Byte), r ≠ Config.spIndex → (∀ a ∈ i.regOperands, a.toNat ≠ r.val) →
    exec i s = .next t →
    exec i { s with regs := s.regs.set r v } = .next { t with regs := t.regs.set r v }

/-- 10_state.md section 3: FL is read only by the six conditional jumps: any other instruction does the same whatever FL
holds, but for FL itself. -/
def Obligations.FlagsReadOnlyByConditionalJumps : Prop :=
  ∀ (i : Instr) (s t : State) (fl : Byte),
    i.op ∉ [Op.jeq, .jne, .jgt, .jlt, .jle, .jge] → exec i s = .next t →
    ∃ fl', exec i { s with fl := fl } = .next { t with fl := fl' } ∧ (fl' = fl ∨ (i.op = .cmp ∧ fl' = t.fl))

/-- 10_state.md section 7: no rule reads IR or OUT: with other contents of the two a step does the same, appending the
same events. -/
def Obligations.OutputAndTraceRegisterAreNotRead : Prop :=
  ∀ (s t : State) (ir : Byte) (out : List Event), step s = .next t →
    ∃ events ir', t.out = s.out ++ events ∧
      step { s with ir := ir, out := out } = .next { t with ir := ir', out := out ++ events }

/-- 10_state.md section 8: a running engine halts only by executing HLT, ERR staying none, or by a fault, ERR holding it. -/
def Obligations.HaltsOnlyByHltOrFault : Prop :=
  ∀ s t : State, s.run = .running → s.err = none → step s = .next t →
    (t.run = .halted ↔ ByteAt s s.pc 0x01#8 ∨ t.err ≠ none) ∧ (ByteAt s s.pc 0x01#8 → t.err = none)

/-- 60_exceptions.md section 2 and 30_encoding.md section 3: an instruction takes InvalidRegister exactly when one of its
checked register operands is above 7, with the first such byte; a well-formed instruction never does (the spec's
decisions D6 and D8). -/
def Obligations.InvalidRegisterExactlyWhenIllFormed : Prop :=
  (∀ (i : Instr) (s : State) (idx : Byte), i.badRegister = some idx → Takes i (.invalidRegister idx) s) ∧
  (∀ (i : Instr) (s t : State) (idx : Byte), i.wf = true → s.err = none → exec i s = .next t →
    t.err ≠ some (.invalidRegister idx)) ∧
  (∀ i : Instr, i.wf = false ↔ ∃ idx, i.badRegister = some idx)

/-! ## Registers and memory -/

/-- R11: a register write stores the value modulo 256, whatever integer it is, and leaves the other registers; an index
byte above 7 fails with InvalidRegister. -/
def Obligations.RegisterWritesAreMasked : Prop :=
  (∀ (s : State) (r : RegIndex) (v : Int),
    (((s.writeReg r v).readReg r).toNat : Int) = v % 256 ∧ RegsKept [r] s (s.writeReg r v)) ∧
  (∀ a : Byte, 8 ≤ a.toNat → reg a = .error (.invalidRegister a)) ∧
  (∀ r : RegIndex, reg (regByte r) = .ok r)

/-- R31: a read inside memory gives the cell, a read at 256 or above raises OutOfBounds with the address as it stands,
never the cell at the reduced address. -/
def Obligations.MemReadIsBoundsChecked : Prop :=
  (∀ (m : Memory) (addr : Nat), addr ≤ 255 → memRead m addr = .ok (m.get addr)) ∧
  (∀ (m : Memory) (addr : Nat), 256 ≤ addr → memRead m addr = .error (.outOfBounds addr))

/-- 20_memory.md section 1: a write inside memory changes exactly the cell written, and the memory keeps its canonical
form; an address outside raises OutOfBounds, checked first (the spec's decision D8), and a value above 255 InvalidValue. -/
def Obligations.MemWriteChangesExactlyOneCell : Prop :=
  ∀ (m : Memory) (addr v : Nat), m.wf = true →
    (addr ≤ 255 → v ≤ 255 → ∃ m', memWrite m addr v = .ok m' ∧ m'.wf = true ∧
      memRead m' addr = .ok (BitVec.ofNat 8 v) ∧ ∀ other, other ≠ addr → memRead m' other = memRead m other) ∧
    (addr ≤ 255 → 256 ≤ v → memWrite m addr v = .error (.invalidValue v)) ∧
    (256 ≤ addr → memWrite m addr v = .error (.outOfBounds addr))

/-- 20_memory.md section 1: two memories in canonical form that read alike everywhere are the same data. -/
def Obligations.CanonicalMemoriesAreEqualWhenTheyReadAlike : Prop :=
  ∀ m m' : Memory, m.wf = true → m'.wf = true → (∀ addr, addr ≤ 255 → memRead m addr = memRead m' addr) → m = m'

/-- 20_memory.md section 9: a byte that ST writes where the next instruction lies is the opcode byte the very next step
fetches. -/
def Obligations.StoredByteIsFetchedByTheNextStep : Prop :=
  ∀ (s : State) (ra rb : RegIndex), s.run = .running → s.pc + 3 ≤ 255 →
    ByteAt s s.pc 0x84#8 → ByteAt s (s.pc + 1) (regByte ra) → ByteAt s (s.pc + 2) (regByte rb) →
    (s.readReg ra).toNat = s.pc + 3 →
    ∃ t u, step s = .next t ∧ t.pc = s.pc + 3 ∧ step t = .next u ∧ u.ir = s.readReg rb

/-! ## Reset, load and the host -/

/-- R13: the registers after reset. -/
def Obligations.ResetRegisters : Prop :=
  State.reset.readReg 7 = 0xF4#8 ∧ ∀ r : RegIndex, r ≠ 7 → State.reset.readReg r = 0#8

/-- 10_state.md section 9: the rest of the state after reset (FL and IR by the spec's decision D5, RUN by D26). -/
def Obligations.ResetOfEverythingElse : Prop :=
  State.reset.fl = 0#8 ∧ State.reset.pc = 0 ∧ State.reset.ir = 0#8 ∧
  (∀ addr, addr ≤ 255 → ByteAt State.reset addr 0#8) ∧
  State.reset.run = .running ∧ State.reset.err = none ∧ State.reset.out = []

/-- 70_reset_and_hazards.md section 2: `load` copies the image to the cells from 0 up, sets PC, RUN and ERR, and changes
nothing else (the spec's decision D16); an image of more than 256 bytes is refused with its length. -/
def Obligations.LoadCopiesTheImage : Prop :=
  ∀ (program : List Byte) (s : State),
    (program.length ≤ 256 → ∃ t, loadProgram program s = .ok t ∧
      (∀ k v, program[k]? = some v → ByteAt t k v) ∧
      (∀ addr, program.length ≤ addr → memRead t.mem addr = memRead s.mem addr) ∧
      t.pc = 0 ∧ t.run = .running ∧ t.err = none ∧ RegsKept [] s t ∧ t.fl = s.fl ∧ t.ir = s.ir ∧ t.out = s.out) ∧
    (257 ≤ program.length → loadProgram program s = .error (.programTooLarge program.length) ∧
      act (.load program) s = (s, .programTooLarge program.length))

/-- 70_reset_and_hazards.md section 2: after a `load` of an image that begins with an instruction, the first step executes
that instruction, from address 0. -/
def Obligations.LoadedImageRunsFromAddressZero : Prop :=
  ∀ (i : Instr) (rest : List Byte) (s t : State), (encode i ++ rest).length ≤ 256 →
    loadProgram (encode i ++ rest) s = .ok t →
    step t = exec i { t with ir := i.op.opcode } ∧ t.pc = 0

/-- 70_reset_and_hazards.md section 4: a run stopped after j steps can be taken up again, and a halted engine stays as it
is (the spec's decision D21). -/
def Obligations.RunsCanBeTakenUpAgain : Prop :=
  (∀ (j k : Nat) (s : State), runFor (j + k) s = runFor k (runFor j s)) ∧
  (∀ (k : Nat) (s : State), s.run = .halted → runFor k s = s)

/-- 10_state.md section 8: nothing but the host's reset or `load` leaves Halted; a step asked for in Halted changes
nothing (the spec's decision D25). -/
def Obligations.OnlyResetOrLoadLeavesHalted : Prop :=
  ∀ (action : Action) (s : State), s.run = .halted → (act action s).1.run = .running →
    action = .reset ∨ ∃ program, action = .load program

/-- The model's own `withFetchWord` (log entry 3): with the bytes of a table word placed at PC, a step executes the
instruction the decoder reads from the word. -/
def Obligations.PlacedWordIsExecuted : Prop :=
  ∀ (s : State) (nbits w : Nat) (i : Instr), s.pc ≤ 253 → decodeTableWord nbits w = some i →
    step (s.withFetchWord nbits w) = exec i { s.withFetchWord nbits w with ir := i.op.opcode }
end

