-- ==== Sys2Proof/Laws/Decode.lean ====
section
/-! SUPPORT. Small laws of the decoder: the table, the descriptor of each opcode, and what the decoder takes. -/

namespace Sys2Proof

/-- The opcode of each operation is found in the table. -/
@[simp] theorem lookup_opcode (o : Op) : lookup o.opcode = some o := by
  cases o <;> rfl

/-- A byte that is found in the table is the opcode of what it gives. -/
theorem opcode_of_lookup : ∀ (byte : Byte) (o : Op), lookup byte = some o → o.opcode = byte := by
  decide +kernel

@[simp] theorem build_op (o : Op) (a b : Byte) : (build o a b).op = o := by
  cases o <;> rfl

/-- `AA` is the byte's two top bits. -/
theorem describe_operandCount (byte : Byte) : (describe byte).operandCount = byte.toNat / 64 := by
  have := byte.isLt
  simp only [describe, bitField]
  omega

theorem describe_setsPc (byte : Byte) : (describe byte).setsPc = byte.getLsbD 4 := rfl

theorem describe_isAlu (byte : Byte) : (describe byte).isAlu = byte.getLsbD 5 := rfl

theorem fetchCount_eq (byte : Byte) : fetchCount byte = min (byte.toNat / 64) 2 := by
  rw [fetchCount, describe_operandCount]

/-- No opcode of the table has `AA` = 3 (30_encoding.md R52). -/
theorem operandCount_opcode_le (o : Op) : (describe o.opcode).operandCount ≤ 2 := by
  cases o <;> decide

/-- The operand bytes an instruction holds are as many as its opcode byte says (30_encoding.md R50). -/
theorem operands_length (i : Instr) : i.operands.length = (describe i.op.opcode).operandCount := by
  rw [describe_operandCount]
  cases i <;> simp [Instr.operands, Instr.op, Op.opcode]

/-- What the operand bytes are taken for, by their number. -/
theorem takeOperands_cases {byte : Byte} {o : Op} {rest : List Byte} {i : Instr} {left : List Byte}
    (h : takeOperands byte o rest = .ok (i, left)) :
    ((describe byte).operandCount = 0 ∧ i = build o 0 0 ∧ left = rest) ∨
    (∃ a, (describe byte).operandCount = 1 ∧ i = build o a 0 ∧ rest = a :: left) ∨
    (∃ a b, (describe byte).operandCount = 2 ∧ i = build o a b ∧ rest = a :: b :: left) := by
  unfold takeOperands at h
  split at h
  · next e => cases h; exact .inl ⟨e, rfl, rfl⟩
  · next a _ e => cases h; exact .inr (.inl ⟨a, e, rfl, rfl⟩)
  · next a b _ e => cases h; exact .inr (.inr ⟨a, b, e, rfl, rfl⟩)
  · cases h

/-- What the decoder answers with an instruction is: a table byte and its operand bytes. -/
theorem decode_cases {bytes : List Byte} {i : Instr} {left : List Byte} (h : decode bytes = .ok (i, left)) :
    ∃ byte o rest, bytes = byte :: rest ∧ lookup byte = some o ∧ takeOperands byte o rest = .ok (i, left) := by
  cases bytes with
  | nil => cases h
  | cons byte rest =>
    simp only [decode] at h
    split at h
    · cases h
    · next o e => exact ⟨byte, o, rest, rfl, e, h⟩

end Sys2Proof
end

