-- ==== Sys2Proof/Laws/Memory.lean ====
section
/-! SUPPORT. The laws of memory: what a read gives after a write, and that every operation keeps the canonical form. -/

namespace Sys2Proof.Machine

@[simp] theorem Memory.get_nil (a : Nat) : Memory.get [] a = 0#8 := rfl

theorem Memory.get_cons (k : Nat) (v : Byte) (m : Memory) (a : Nat) :
    Memory.get ((k, v) :: m) a = if k = a then v else m.get a := rfl

theorem Memory.get_erase (m : Memory) (a b : Nat) :
    (m.erase a).get b = if b = a then 0#8 else m.get b := by
  induction m with
  | nil => simp [Memory.erase]
  | cons cell rest ih =>
    obtain ⟨k, v⟩ := cell
    simp only [Memory.erase, List.filter_cons] at ih ⊢
    by_cases hk : k = a
    · subst hk
      simp only [ne_eq, not_true_eq_false, decide_false, Bool.false_eq_true, if_false, ih, Memory.get_cons]
      split
      · rfl
      · next h => rw [if_neg (fun e => h e.symm)]
    · simp only [ne_eq, hk, not_false_eq_true, decide_true, if_true, Memory.get_cons, ih]
      by_cases hb : b = a
      · subst hb; simp [hk]
      · simp [hb]

theorem Memory.get_insert (m : Memory) (a : Nat) (v : Byte) (b : Nat) :
    (∀ cell ∈ m, cell.1 ≠ a) → (m.insert a v).get b = if b = a then v else m.get b := by
  induction m with
  | nil => intro _; simp [Memory.insert, Memory.get_cons, eq_comm]
  | cons cell rest ih =>
    obtain ⟨k, w⟩ := cell
    intro hk
    have hka : k ≠ a := hk (k, w) (by simp)
    simp only [Memory.insert]
    split
    · simp only [Memory.get_cons, eq_comm]
    · rw [Memory.get_cons, Memory.get_cons, ih (fun c hc => hk c (by simp [hc]))]
      by_cases hb : b = a
      · subst hb; simp [hka]
      · simp [hb]

theorem Memory.erase_keys (m : Memory) (a : Nat) : ∀ cell ∈ m.erase a, cell.1 ≠ a := by
  intro cell hc
  simpa [Memory.erase] using (List.mem_filter.mp hc).2

/-- One read after one write: the cell written holds the value, every other cell what it held. -/
theorem Memory.get_set (m : Memory) (a : Nat) (v : Byte) (b : Nat) :
    (m.set a v).get b = if b = a then v else m.get b := by
  unfold Memory.set
  split
  · next h => rw [Memory.get_erase, h]
  · rw [Memory.get_insert _ a v b (m.erase_keys a), Memory.get_erase]
    split <;> simp_all

@[simp] theorem Memory.get_set_self (m : Memory) (a : Nat) (v : Byte) : (m.set a v).get a = v := by
  simp [Memory.get_set]

theorem Memory.get_set_ne (m : Memory) {a b : Nat} (v : Byte) (h : b ≠ a) : (m.set a v).get b = m.get b := by
  simp [Memory.get_set, h]

theorem Memory.get_install (bytes : List Byte) : ∀ (m : Memory) (base a : Nat),
    (m.install base bytes).get a =
      if base ≤ a then (bytes[a - base]?).getD (m.get a) else m.get a := by
  induction bytes with
  | nil => intro m base a; simp [Memory.install]
  | cons v rest ih =>
    intro m base a
    simp only [Memory.install, ih, Memory.get_set]
    by_cases h1 : base + 1 ≤ a
    · have e : a - base = a - (base + 1) + 1 := by omega
      have h2 : base ≤ a := by omega
      have h3 : a ≠ base := by omega
      simp [h1, h2, h3, e]
    · by_cases h2 : a = base
      · subst h2; simp
      · have h3 : ¬ base ≤ a := by omega
        simp [h1, h2, h3]

/-! ### The canonical form -/

theorem Memory.wfFrom_mono : ∀ (m : Memory) {lo lo' : Nat}, lo' ≤ lo → Memory.wfFrom lo m = true →
    Memory.wfFrom lo' m = true
  | [], _, _, _, _ => rfl
  | (_, _) :: _, _, _, h, hm => by
    simp only [Memory.wfFrom, Bool.and_eq_true, decide_eq_true_eq] at hm ⊢
    exact ⟨⟨⟨by omega, hm.1.1.2⟩, hm.1.2⟩, hm.2⟩

theorem Memory.wfFrom_erase (a : Nat) : ∀ (m : Memory) (lo : Nat), Memory.wfFrom lo m = true →
    Memory.wfFrom lo (m.erase a) = true
  | [], _, _ => rfl
  | (k, v) :: rest, lo, h => by
    simp only [Memory.wfFrom, Bool.and_eq_true, decide_eq_true_eq] at h
    have ih := Memory.wfFrom_erase a rest (k + 1) h.2
    simp only [Memory.erase, List.filter_cons] at ih ⊢
    split
    · simp only [Memory.wfFrom, Bool.and_eq_true, decide_eq_true_eq]
      exact ⟨h.1, ih⟩
    · exact Memory.wfFrom_mono _ (by omega) ih

theorem Memory.wfFrom_insert (a : Nat) (v : Byte) (ha : a < 256) (hv : v ≠ 0#8) : ∀ (m : Memory) (lo : Nat),
    lo ≤ a → (∀ cell ∈ m, cell.1 ≠ a) → Memory.wfFrom lo m = true → Memory.wfFrom lo (m.insert a v) = true
  | [], lo, hlo, _, _ => by simp [Memory.insert, Memory.wfFrom, ha, hv, hlo]
  | (k, w) :: rest, lo, hlo, hk, h => by
    have hka : k ≠ a := hk (k, w) (by simp)
    simp only [Memory.wfFrom, Bool.and_eq_true, decide_eq_true_eq] at h
    simp only [Memory.insert]
    split
    · next hlt =>
      simp only [Memory.wfFrom, Bool.and_eq_true, decide_eq_true_eq]
      exact ⟨⟨⟨hlo, ha⟩, hv⟩, ⟨⟨by omega, h.1.1.2⟩, h.1.2⟩, h.2⟩
    · next hlt =>
      simp only [Memory.wfFrom, Bool.and_eq_true, decide_eq_true_eq]
      exact ⟨h.1, Memory.wfFrom_insert a v ha hv rest (k + 1) (by omega) (fun c hc => hk c (by simp [hc])) h.2⟩

/-- A write inside memory keeps the canonical form. -/
theorem Memory.wf_set (m : Memory) (a : Nat) (v : Byte) (ha : a < 256) (h : m.wf = true) : (m.set a v).wf = true := by
  unfold Memory.wf at *
  unfold Memory.set
  split
  · exact Memory.wfFrom_erase a m 0 h
  · next hv =>
    exact Memory.wfFrom_insert a v ha hv _ 0 (Nat.zero_le _) (m.erase_keys a) (Memory.wfFrom_erase a m 0 h)

/-- Consecutive writes inside memory keep the canonical form. -/
theorem Memory.wf_install : ∀ (bytes : List Byte) (m : Memory) (base : Nat), base + bytes.length ≤ 256 →
    m.wf = true → (m.install base bytes).wf = true
  | [], _, _, _, h => h
  | _ :: rest, m, base, hl, h => by
    simp only [List.length_cons] at hl
    exact Memory.wf_install rest _ (base + 1) (by omega) (m.wf_set base _ (by omega) h)

theorem Memory.get_of_lt_wfFrom : ∀ (m : Memory) (lo a : Nat), Memory.wfFrom lo m = true → a < lo → m.get a = 0#8
  | [], _, _, _, _ => rfl
  | (k, v) :: rest, lo, a, h, ha => by
    simp only [Memory.wfFrom, Bool.and_eq_true, decide_eq_true_eq] at h
    rw [Memory.get_cons, if_neg (by omega)]
    exact Memory.get_of_lt_wfFrom rest (k + 1) a h.2 (by omega)

/-! ### `memRead` and `memWrite` -/

theorem memRead_lt (m : Memory) {a : Nat} (h : a < 256) : memRead m a = .ok (m.get a) := by
  simp [memRead, h]

theorem memRead_ge (m : Memory) {a : Nat} (h : 256 ≤ a) : memRead m a = .error (.outOfBounds a) := by
  simp [memRead, Nat.not_lt.mpr h]

theorem memRead_eq_ok {m : Memory} {a : Nat} {v : Byte} : memRead m a = .ok v ↔ a < 256 ∧ m.get a = v := by
  unfold memRead
  split <;> simp_all

@[simp] theorem memRead_byte (m : Memory) (b : Byte) : memRead m b.toNat = .ok (m.get b.toNat) :=
  memRead_lt m b.isLt

theorem memWrite_ok (m : Memory) {a v : Nat} (ha : a < 256) (hv : v < 256) :
    memWrite m a v = .ok (m.set a (BitVec.ofNat 8 v)) := by
  simp [memWrite, ha, hv]

theorem memWrite_invalidValue (m : Memory) {a v : Nat} (ha : a < 256) (hv : 256 ≤ v) :
    memWrite m a v = .error (.invalidValue v) := by
  simp [memWrite, ha, Nat.not_lt.mpr hv]

theorem memWrite_outOfBounds (m : Memory) {a v : Nat} (ha : 256 ≤ a) :
    memWrite m a v = .error (.outOfBounds a) := by
  simp [memWrite, Nat.not_lt.mpr ha]

theorem memRead_set_ne (m : Memory) {a b : Nat} (v : Byte) (h : b ≠ a) :
    memRead (m.set a v) b = memRead m b := by
  simp [memRead, Memory.get_set_ne m v h]

end Sys2Proof.Machine
end

