-- ==== Sys2Proof/Laws/State.lean ====
section
/-! SUPPORT. Each field after each named update of the state, the register accessors, and `mask8`. -/

namespace Sys2Proof.Machine

/-! ### `writeReg` -/

@[simp] theorem State.writeReg_regs (s : State) (i : RegIndex) (v : Int) : (s.writeReg i v).regs = s.regs.set i (mask8 v) := rfl
@[simp] theorem State.writeReg_fl (s : State) (i : RegIndex) (v : Int) : (s.writeReg i v).fl = s.fl := rfl
@[simp] theorem State.writeReg_pc (s : State) (i : RegIndex) (v : Int) : (s.writeReg i v).pc = s.pc := rfl
@[simp] theorem State.writeReg_ir (s : State) (i : RegIndex) (v : Int) : (s.writeReg i v).ir = s.ir := rfl
@[simp] theorem State.writeReg_mem (s : State) (i : RegIndex) (v : Int) : (s.writeReg i v).mem = s.mem := rfl
@[simp] theorem State.writeReg_run (s : State) (i : RegIndex) (v : Int) : (s.writeReg i v).run = s.run := rfl
@[simp] theorem State.writeReg_err (s : State) (i : RegIndex) (v : Int) : (s.writeReg i v).err = s.err := rfl
@[simp] theorem State.writeReg_out (s : State) (i : RegIndex) (v : Int) : (s.writeReg i v).out = s.out := rfl

/-! ### `writePc` -/

@[simp] theorem State.writePc_regs (s : State) (t : Nat) : (s.writePc t).regs = s.regs := rfl
@[simp] theorem State.writePc_fl (s : State) (t : Nat) : (s.writePc t).fl = s.fl := rfl
@[simp] theorem State.writePc_pc (s : State) (t : Nat) : (s.writePc t).pc = t := rfl
@[simp] theorem State.writePc_ir (s : State) (t : Nat) : (s.writePc t).ir = s.ir := rfl
@[simp] theorem State.writePc_mem (s : State) (t : Nat) : (s.writePc t).mem = s.mem := rfl
@[simp] theorem State.writePc_run (s : State) (t : Nat) : (s.writePc t).run = s.run := rfl
@[simp] theorem State.writePc_err (s : State) (t : Nat) : (s.writePc t).err = s.err := rfl
@[simp] theorem State.writePc_out (s : State) (t : Nat) : (s.writePc t).out = s.out := rfl

/-! ### `writeIr` -/

@[simp] theorem State.writeIr_regs (s : State) (op : Byte) : (s.writeIr op).regs = s.regs := rfl
@[simp] theorem State.writeIr_fl (s : State) (op : Byte) : (s.writeIr op).fl = s.fl := rfl
@[simp] theorem State.writeIr_pc (s : State) (op : Byte) : (s.writeIr op).pc = s.pc := rfl
@[simp] theorem State.writeIr_ir (s : State) (op : Byte) : (s.writeIr op).ir = op := rfl
@[simp] theorem State.writeIr_mem (s : State) (op : Byte) : (s.writeIr op).mem = s.mem := rfl
@[simp] theorem State.writeIr_run (s : State) (op : Byte) : (s.writeIr op).run = s.run := rfl
@[simp] theorem State.writeIr_err (s : State) (op : Byte) : (s.writeIr op).err = s.err := rfl
@[simp] theorem State.writeIr_out (s : State) (op : Byte) : (s.writeIr op).out = s.out := rfl

/-! ### `writeFl` -/

@[simp] theorem State.writeFl_regs (s : State) (fl : Byte) : (s.writeFl fl).regs = s.regs := rfl
@[simp] theorem State.writeFl_fl (s : State) (fl : Byte) : (s.writeFl fl).fl = fl := rfl
@[simp] theorem State.writeFl_pc (s : State) (fl : Byte) : (s.writeFl fl).pc = s.pc := rfl
@[simp] theorem State.writeFl_ir (s : State) (fl : Byte) : (s.writeFl fl).ir = s.ir := rfl
@[simp] theorem State.writeFl_mem (s : State) (fl : Byte) : (s.writeFl fl).mem = s.mem := rfl
@[simp] theorem State.writeFl_run (s : State) (fl : Byte) : (s.writeFl fl).run = s.run := rfl
@[simp] theorem State.writeFl_err (s : State) (fl : Byte) : (s.writeFl fl).err = s.err := rfl
@[simp] theorem State.writeFl_out (s : State) (fl : Byte) : (s.writeFl fl).out = s.out := rfl

/-! ### `writeMem` -/

@[simp] theorem State.writeMem_regs (s : State) (m : Memory) : (s.writeMem m).regs = s.regs := rfl
@[simp] theorem State.writeMem_fl (s : State) (m : Memory) : (s.writeMem m).fl = s.fl := rfl
@[simp] theorem State.writeMem_pc (s : State) (m : Memory) : (s.writeMem m).pc = s.pc := rfl
@[simp] theorem State.writeMem_ir (s : State) (m : Memory) : (s.writeMem m).ir = s.ir := rfl
@[simp] theorem State.writeMem_mem (s : State) (m : Memory) : (s.writeMem m).mem = m := rfl
@[simp] theorem State.writeMem_run (s : State) (m : Memory) : (s.writeMem m).run = s.run := rfl
@[simp] theorem State.writeMem_err (s : State) (m : Memory) : (s.writeMem m).err = s.err := rfl
@[simp] theorem State.writeMem_out (s : State) (m : Memory) : (s.writeMem m).out = s.out := rfl

/-! ### `halt` -/

@[simp] theorem State.halt_regs (s : State) : s.halt.regs = s.regs := rfl
@[simp] theorem State.halt_fl (s : State) : s.halt.fl = s.fl := rfl
@[simp] theorem State.halt_pc (s : State) : s.halt.pc = s.pc := rfl
@[simp] theorem State.halt_ir (s : State) : s.halt.ir = s.ir := rfl
@[simp] theorem State.halt_mem (s : State) : s.halt.mem = s.mem := rfl
@[simp] theorem State.halt_run (s : State) : s.halt.run = .halted := rfl
@[simp] theorem State.halt_err (s : State) : s.halt.err = s.err := rfl
@[simp] theorem State.halt_out (s : State) : s.halt.out = s.out := rfl

/-! ### `emit` -/

@[simp] theorem State.emit_regs (s : State) (e : Event) : (s.emit e).regs = s.regs := rfl
@[simp] theorem State.emit_fl (s : State) (e : Event) : (s.emit e).fl = s.fl := rfl
@[simp] theorem State.emit_pc (s : State) (e : Event) : (s.emit e).pc = s.pc := rfl
@[simp] theorem State.emit_ir (s : State) (e : Event) : (s.emit e).ir = s.ir := rfl
@[simp] theorem State.emit_mem (s : State) (e : Event) : (s.emit e).mem = s.mem := rfl
@[simp] theorem State.emit_run (s : State) (e : Event) : (s.emit e).run = s.run := rfl
@[simp] theorem State.emit_err (s : State) (e : Event) : (s.emit e).err = s.err := rfl
@[simp] theorem State.emit_out (s : State) (e : Event) : (s.emit e).out = s.out ++ [e] := rfl

/-! ### `raise` -/

@[simp] theorem raise_regs (f : Fault) (s : State) : (raise f s).regs = s.regs := rfl
@[simp] theorem raise_fl (f : Fault) (s : State) : (raise f s).fl = s.fl := rfl
@[simp] theorem raise_pc (f : Fault) (s : State) : (raise f s).pc = s.pc := rfl
@[simp] theorem raise_ir (f : Fault) (s : State) : (raise f s).ir = s.ir := rfl
@[simp] theorem raise_mem (f : Fault) (s : State) : (raise f s).mem = s.mem := rfl
@[simp] theorem raise_run (f : Fault) (s : State) : (raise f s).run = .halted := rfl
@[simp] theorem raise_err (f : Fault) (s : State) : (raise f s).err = some f := rfl
@[simp] theorem raise_out (f : Fault) (s : State) : (raise f s).out = s.out := rfl

/-! ### Registers -/

@[simp] theorem State.readReg_writePc (s : State) (t : Nat) (r : RegIndex) : (s.writePc t).readReg r = s.readReg r := rfl
@[simp] theorem State.readReg_writeIr (s : State) (op : Byte) (r : RegIndex) : (s.writeIr op).readReg r = s.readReg r := rfl
@[simp] theorem State.readReg_writeFl (s : State) (fl : Byte) (r : RegIndex) : (s.writeFl fl).readReg r = s.readReg r := rfl
@[simp] theorem State.readReg_writeMem (s : State) (m : Memory) (r : RegIndex) : (s.writeMem m).readReg r = s.readReg r := rfl
@[simp] theorem State.readReg_halt (s : State) (r : RegIndex) : s.halt.readReg r = s.readReg r := rfl
@[simp] theorem State.readReg_emit (s : State) (e : Event) (r : RegIndex) : (s.emit e).readReg r = s.readReg r := rfl

@[simp] theorem readReg_raise (f : Fault) (s : State) (r : RegIndex) : (raise f s).readReg r = s.readReg r := rfl

@[simp] theorem State.readReg_writeReg_self (s : State) (r : RegIndex) (v : Int) :
    (s.writeReg r v).readReg r = mask8 v := by
  simp [State.readReg, State.writeReg]

theorem State.readReg_writeReg_ne (s : State) {r q : RegIndex} (v : Int) (h : q ≠ r) :
    (s.writeReg r v).readReg q = s.readReg q := by
  have : r.val ≠ q.val := fun e => h (Fin.ext e.symm)
  simp [State.readReg, State.writeReg, Vector.getElem_set_ne, this]

theorem State.readReg_writeReg (s : State) (r q : RegIndex) (v : Int) :
    (s.writeReg r v).readReg q = if q = r then mask8 v else s.readReg q := by
  split
  · next h => subst h; exact s.readReg_writeReg_self q v
  · next h => exact s.readReg_writeReg_ne v h

/-! ### `mask8` -/

theorem mask8_toNat (n : Int) : ((mask8 n).toNat : Int) = n % 256 := by
  simp only [mask8, BitVec.toNat_ofInt]
  omega

@[simp] theorem mask8_natCast_toNat (b : Byte) : mask8 (b.toNat : Int) = b := by
  apply BitVec.eq_of_toNat_eq
  have h := mask8_toNat (b.toNat : Int)
  have := b.isLt
  omega

theorem mask8_natCast_toNat_eq (n : Nat) : (mask8 (n : Int)).toNat = n % 256 := by
  have h := mask8_toNat (n : Int)
  omega

/-! ### SP -/

theorem State.decSp_sp_toNat (s : State) : s.decSp.sp.toNat = (s.sp.toNat + 255) % 256 := by
  have h := mask8_toNat ((s.sp.toNat : Int) - 1)
  simp only [State.decSp, State.sp, State.readReg_writeReg_self] at *
  omega

theorem State.incSp_sp_toNat (s : State) : s.incSp.sp.toNat = (s.sp.toNat + 1) % 256 := by
  have h := mask8_toNat ((s.sp.toNat : Int) + 1)
  simp only [State.incSp, State.sp, State.readReg_writeReg_self] at *
  omega

theorem State.readReg_decSp_ne (s : State) {r : RegIndex} (h : r ≠ Config.spIndex) :
    s.decSp.readReg r = s.readReg r := s.readReg_writeReg_ne _ h

theorem State.readReg_incSp_ne (s : State) {r : RegIndex} (h : r ≠ Config.spIndex) :
    s.incSp.readReg r = s.readReg r := s.readReg_writeReg_ne _ h

@[simp] theorem State.decSp_fl (s : State) : s.decSp.fl = s.fl := rfl
@[simp] theorem State.decSp_pc (s : State) : s.decSp.pc = s.pc := rfl
@[simp] theorem State.decSp_ir (s : State) : s.decSp.ir = s.ir := rfl
@[simp] theorem State.decSp_mem (s : State) : s.decSp.mem = s.mem := rfl
@[simp] theorem State.decSp_run (s : State) : s.decSp.run = s.run := rfl
@[simp] theorem State.decSp_err (s : State) : s.decSp.err = s.err := rfl
@[simp] theorem State.decSp_out (s : State) : s.decSp.out = s.out := rfl

@[simp] theorem State.incSp_fl (s : State) : s.incSp.fl = s.fl := rfl
@[simp] theorem State.incSp_pc (s : State) : s.incSp.pc = s.pc := rfl
@[simp] theorem State.incSp_ir (s : State) : s.incSp.ir = s.ir := rfl
@[simp] theorem State.incSp_mem (s : State) : s.incSp.mem = s.mem := rfl
@[simp] theorem State.incSp_run (s : State) : s.incSp.run = s.run := rfl
@[simp] theorem State.incSp_err (s : State) : s.incSp.err = s.err := rfl
@[simp] theorem State.incSp_out (s : State) : s.incSp.out = s.out := rfl

end Sys2Proof.Machine
end

