-- ==== Sys2Proof/Laws/Ops.lean ====
section
/-! SUPPORT. One law for each shared operation: what it answers, and everything it can do when it answers a next state. -/

namespace Sys2Proof.Machine

@[simp] theorem except_bind_ok {α β : Type} (a : α) (f : α → Except Fault β) :
    ((Except.ok a : Except Fault α) >>= f) = f a := rfl

@[simp] theorem except_bind_error {α β : Type} (e : Fault) (f : α → Except Fault β) :
    ((Except.error e : Except Fault α) >>= f) = .error e := rfl

@[simp] theorem except_pure {α : Type} (a : α) : (pure a : Except Fault α) = .ok a := rfl

/-- A sequence of two computations that answers, answers in both. -/
theorem except_bind_eq_ok {α β : Type} {x : Except Fault α} {f : α → Except Fault β} {b : β} :
    (x >>= f) = .ok b ↔ ∃ a, x = .ok a ∧ f a = .ok b := by
  cases x <;> simp

/-! ### Operands -/

@[simp] theorem regByte_toNat (r : RegIndex) : (regByte r).toNat = r.val := by
  simp only [regByte, BitVec.toNat_ofNat]
  omega

@[simp] theorem reg_regByte (r : RegIndex) : reg (regByte r) = .ok r := by
  simp [reg]

theorem reg_bad {a : Byte} (h : 8 ≤ a.toNat) : reg a = .error (.invalidRegister a) := by
  simp [reg, Nat.not_lt.mpr h]

/-- A checked operand is the byte of its register. -/
theorem reg_eq_ok {a : Byte} {r : RegIndex} : reg a = .ok r ↔ a = regByte r := by
  constructor
  · intro h
    unfold reg at h
    split at h
    · cases h
      apply BitVec.eq_of_toNat_eq
      simp
    · cases h
  · rintro rfl
    exact reg_regByte r

theorem reg_of_lt {a : Byte} (h : a.toNat < 8) : ∃ r, a = regByte r :=
  ⟨⟨a.toNat, h⟩, by apply BitVec.eq_of_toNat_eq; simp⟩

theorem reg_eq_error {a : Byte} {f : Fault} : reg a = .error f ↔ 8 ≤ a.toNat ∧ f = .invalidRegister a := by
  unfold reg
  split
  · next h =>
    simp only [reduceCtorEq, false_iff, not_and]
    omega
  · next h => simp [Nat.not_lt.mp h, eq_comm]

theorem regByte_inj {r q : RegIndex} (h : regByte r = regByte q) : r = q := by
  apply Fin.ext
  simpa using congrArg BitVec.toNat h

/-! ### Memory access through the state -/

@[simp] theorem State.readByte_byte (s : State) (b : Byte) : s.readByte b.toNat = .ok (s.mem.get b.toNat) :=
  memRead_byte s.mem b

theorem State.storeByte_byte (s : State) (b : Byte) {v : Nat} (hv : v < 256) :
    s.storeByte b.toNat v = .ok (s.writeMem (s.mem.set b.toNat (BitVec.ofNat 8 v))) := by
  simp [State.storeByte, memWrite_ok _ b.isLt hv]

theorem State.storeByte_invalidValue (s : State) (b : Byte) {v : Nat} (hv : 256 ≤ v) :
    s.storeByte b.toNat v = .error (.invalidValue v) := by
  simp [State.storeByte, memWrite_invalidValue _ b.isLt hv]

theorem State.push_ok (s : State) {v : Nat} (hv : v < 256) :
    s.push v = .ok (s.decSp.writeMem (s.mem.set s.decSp.sp.toNat (BitVec.ofNat 8 v))) := by
  simp [State.push, State.storeByte_byte _ _ hv]

theorem State.push_invalidValue (s : State) {v : Nat} (hv : 256 ≤ v) : s.push v = .error (.invalidValue v) :=
  s.decSp.storeByte_invalidValue _ hv

@[simp] theorem State.pop_ok (s : State) : s.pop = .ok (s.mem.get s.sp.toNat, s.incSp) := by
  simp [State.pop]

/-! ### The end of a step -/

@[simp] theorem complete_ok (o : Op) (s t : State) :
    complete o s (.ok t) = .next (advancePc (describe o.opcode) t) := rfl

@[simp] theorem complete_error (o : Op) (s : State) (f : Fault) : complete o s (.error f) = .next (raise f s) := rfl

/-- Everything the end of a step can do. -/
theorem complete_cases {o : Op} {s t : State} {r : Except Fault State} (h : complete o s r = .next t) :
    (∃ u, r = .ok u ∧ t = advancePc (describe o.opcode) u) ∨ (∃ f, r = .error f ∧ t = raise f s) := by
  cases r with
  | ok u => cases h; exact .inl ⟨u, rfl, rfl⟩
  | error f => cases h; exact .inr ⟨f, rfl, rfl⟩

theorem advancePc_running {d : Descriptor} {s : State} (hr : s.run = .running) (hd : d.setsPc = false) :
    advancePc d s = s.writePc (s.pc + 1 + d.operandCount) := by
  simp [advancePc, hr, hd]

theorem advancePc_setsPc {d : Descriptor} {s : State} (hd : d.setsPc = true) : advancePc d s = s := by
  simp [advancePc, hd]

theorem advancePc_halted {d : Descriptor} {s : State} (hr : s.run = .halted) : advancePc d s = s := by
  simp [advancePc, hr]

theorem advancePc_eq (d : Descriptor) (s : State) :
    advancePc d s =
      s.writePc (if s.run = .running ∧ d.setsPc = false then s.pc + 1 + d.operandCount else s.pc) := by
  unfold advancePc
  split <;> rfl

@[simp] theorem advancePc_regs (d : Descriptor) (s : State) : (advancePc d s).regs = s.regs := by
  rw [advancePc_eq]; rfl
@[simp] theorem advancePc_fl (d : Descriptor) (s : State) : (advancePc d s).fl = s.fl := by
  rw [advancePc_eq]; rfl
@[simp] theorem advancePc_ir (d : Descriptor) (s : State) : (advancePc d s).ir = s.ir := by
  rw [advancePc_eq]; rfl
@[simp] theorem advancePc_mem (d : Descriptor) (s : State) : (advancePc d s).mem = s.mem := by
  rw [advancePc_eq]; rfl
@[simp] theorem advancePc_run (d : Descriptor) (s : State) : (advancePc d s).run = s.run := by
  rw [advancePc_eq]; rfl
@[simp] theorem advancePc_err (d : Descriptor) (s : State) : (advancePc d s).err = s.err := by
  rw [advancePc_eq]; rfl
@[simp] theorem advancePc_out (d : Descriptor) (s : State) : (advancePc d s).out = s.out := by
  rw [advancePc_eq]; rfl
@[simp] theorem readReg_advancePc (d : Descriptor) (s : State) (r : RegIndex) :
    (advancePc d s).readReg r = s.readReg r := by
  rw [advancePc_eq]; rfl

@[simp] theorem withReg_regByte (o : Op) (r : RegIndex) (s : State) (body : RegIndex → Except Fault State) :
    withReg o (regByte r) s body = complete o s (body r) := by
  simp [withReg]

theorem withReg_bad (o : Op) {a : Byte} (h : 8 ≤ a.toNat) (s : State) (body : RegIndex → Except Fault State) :
    withReg o a s body = .next (raise (.invalidRegister a) s) := by
  simp [withReg, reg_bad h]

@[simp] theorem withRegs_regByte (o : Op) (ra rb : RegIndex) (s : State)
    (body : RegIndex → RegIndex → Except Fault State) :
    withRegs o (regByte ra) (regByte rb) s body = complete o s (body ra rb) := by
  simp [withRegs]

theorem withRegs_bad_first (o : Op) {a : Byte} (b : Byte) (h : 8 ≤ a.toNat) (s : State)
    (body : RegIndex → RegIndex → Except Fault State) :
    withRegs o a b s body = .next (raise (.invalidRegister a) s) := by
  simp [withRegs, reg_bad h]

theorem withRegs_bad_second (o : Op) (ra : RegIndex) {b : Byte} (h : 8 ≤ b.toNat) (s : State)
    (body : RegIndex → RegIndex → Except Fault State) :
    withRegs o (regByte ra) b s body = .next (raise (.invalidRegister b) s) := by
  simp [withRegs, reg_bad h]

/-- Everything an instruction with one register operand can do. -/
theorem withReg_cases {o : Op} {a : Byte} {s t : State} {body : RegIndex → Except Fault State}
    (h : withReg o a s body = .next t) :
    (8 ≤ a.toNat ∧ t = raise (.invalidRegister a) s) ∨ (∃ r, a = regByte r ∧ complete o s (body r) = .next t) := by
  by_cases ha : a.toNat < 8
  · obtain ⟨r, rfl⟩ := reg_of_lt ha
    exact .inr ⟨r, rfl, by simpa using h⟩
  · rw [withReg_bad o (Nat.not_lt.mp ha)] at h
    cases h
    exact .inl ⟨Nat.not_lt.mp ha, rfl⟩

/-- Everything an instruction with two register operands can do. -/
theorem withRegs_cases {o : Op} {a b : Byte} {s t : State} {body : RegIndex → RegIndex → Except Fault State}
    (h : withRegs o a b s body = .next t) :
    (8 ≤ a.toNat ∧ t = raise (.invalidRegister a) s) ∨
    (a.toNat < 8 ∧ 8 ≤ b.toNat ∧ t = raise (.invalidRegister b) s) ∨
    (∃ r q, a = regByte r ∧ b = regByte q ∧ complete o s (body r q) = .next t) := by
  by_cases ha : a.toNat < 8
  · obtain ⟨r, rfl⟩ := reg_of_lt ha
    by_cases hb : b.toNat < 8
    · obtain ⟨q, rfl⟩ := reg_of_lt hb
      exact .inr (.inr ⟨r, q, rfl, rfl, by simpa using h⟩)
    · rw [withRegs_bad_second o r (Nat.not_lt.mp hb)] at h
      cases h
      exact .inr (.inl ⟨ha, Nat.not_lt.mp hb, rfl⟩)
  · rw [withRegs_bad_first o b (Nat.not_lt.mp ha)] at h
    cases h
    exact .inl ⟨Nat.not_lt.mp ha, rfl⟩

/-! ### Fetch and step -/

theorem step_halted {s : State} (h : s.run = .halted) : step s = .refused .halted := by
  simp [step, h]

theorem step_running {s : State} (h : s.run = .running) :
    step s = match fetch s with
      | .run i t => exec i t
      | .faulted t => .next t := by
  cases hf : fetch s <;> simp [step, h, hf]

/-- An operand byte that was fetched. -/
theorem fetchOperand_eq_ok {op : Byte} {k : Nat} {s : State} {a : Byte} (h : fetchOperand op k s = .ok a) :
    k ≤ fetchCount op → s.readByte (s.pc + k) = .ok a := by
  intro hk
  simpa [fetchOperand, hk] using h

/-- An operand fetch raises only OutOfBounds, at its own address. -/
theorem fetchOperand_eq_error {op : Byte} {k : Nat} {s : State} {f : Fault} (h : fetchOperand op k s = .error f) :
    k ≤ fetchCount op ∧ 256 ≤ s.pc + k ∧ f = .outOfBounds (s.pc + k) := by
  unfold fetchOperand at h
  split at h
  · next hk =>
    by_cases hp : s.pc + k < 256
    · simp [State.readByte, memRead_lt _ hp] at h
    · simp only [State.readByte, memRead_ge _ (Nat.not_lt.mp hp), Except.error.injEq] at h
      exact ⟨hk, Nat.not_lt.mp hp, h.symm⟩
  · cases h

/-- An operand byte that is asked for and lies in memory is fetched. -/
theorem fetchOperand_ok (op : Byte) (k : Nat) (s : State) (h : k ≤ fetchCount op → s.pc + k < 256) :
    fetchOperand op k s = .ok (if k ≤ fetchCount op then s.mem.get (s.pc + k) else 0#8) := by
  unfold fetchOperand
  split
  · next hk => exact memRead_lt _ (h hk)
  · rfl

theorem fetchOperand_outOfBounds (op : Byte) (k : Nat) (s : State) (hk : k ≤ fetchCount op) (hp : 256 ≤ s.pc + k) :
    fetchOperand op k s = .error (.outOfBounds (s.pc + k)) := by
  simp [fetchOperand, hk, State.readByte, memRead_ge _ hp]

/-- The operand bytes the engine fetched, when it fetched them all. -/
theorem fetchOperands_eq_ok {op : Byte} {s : State} {a b : Byte} (h : fetchOperands op s = .ok (a, b)) :
    (1 ≤ fetchCount op → s.readByte (s.pc + 1) = .ok a) ∧ (2 ≤ fetchCount op → s.readByte (s.pc + 2) = .ok b) := by
  simp only [fetchOperands, except_bind_eq_ok, except_pure, Except.ok.injEq, Prod.mk.injEq] at h
  obtain ⟨a', ha, b', hb, rfl, rfl⟩ := h
  exact ⟨fetchOperand_eq_ok ha, fetchOperand_eq_ok hb⟩

/-- The operand fetches raise only OutOfBounds, at the first operand address that is above 255. -/
theorem fetchOperands_eq_error {op : Byte} {s : State} {f : Fault} (h : fetchOperands op s = .error f) :
    (1 ≤ fetchCount op ∧ 256 ≤ s.pc + 1 ∧ f = .outOfBounds (s.pc + 1)) ∨
    (2 ≤ fetchCount op ∧ 256 ≤ s.pc + 2 ∧ f = .outOfBounds (s.pc + 2)) := by
  unfold fetchOperands at h
  cases ha : fetchOperand op 1 s with
  | error f' =>
    simp only [ha, except_bind_error, Except.error.injEq] at h
    exact .inl (h ▸ fetchOperand_eq_error ha)
  | ok a =>
    cases hb : fetchOperand op 2 s with
    | error f' =>
      simp only [ha, hb, except_bind_ok, except_bind_error, Except.error.injEq] at h
      exact .inr (h ▸ fetchOperand_eq_error hb)
    | ok b => simp [ha, hb] at h

/-- Operand bytes that all lie in memory are all fetched. -/
theorem fetchOperands_ok (op : Byte) (s : State) (h : s.pc + fetchCount op < 256) :
    fetchOperands op s = .ok (if 1 ≤ fetchCount op then s.mem.get (s.pc + 1) else 0#8,
      if 2 ≤ fetchCount op then s.mem.get (s.pc + 2) else 0#8) := by
  simp [fetchOperands, fetchOperand_ok op 1 s (by omega), fetchOperand_ok op 2 s (by omega)]

/-- Everything the fetch, decode and lookup stages can end in. -/
theorem fetch_cases (s : State) :
    (256 ≤ s.pc ∧ fetch s = .faulted (raise (.outOfBounds s.pc) s)) ∨
    (∃ op, s.readByte s.pc = .ok op ∧
      ((∃ f, fetchOperands op (s.writeIr op) = .error f ∧ fetch s = .faulted (raise f (s.writeIr op))) ∨
       (lookup op = none ∧ fetch s = .faulted (raise (.unknownOpcode op) (s.writeIr op))) ∨
       (∃ o a b, lookup op = some o ∧ fetchOperands op (s.writeIr op) = .ok (a, b) ∧
          fetch s = .run (build o a b) (s.writeIr op)))) := by
  by_cases hp : s.pc < 256
  · refine .inr ⟨s.mem.get s.pc, memRead_lt _ hp, ?_⟩
    have hr : s.readByte s.pc = .ok (s.mem.get s.pc) := memRead_lt _ hp
    simp only [fetch, hr, fetchRest]
    cases hf : fetchOperands (s.mem.get s.pc) (s.writeIr (s.mem.get s.pc)) with
    | error f => exact .inl ⟨f, rfl, rfl⟩
    | ok ab =>
      obtain ⟨a, b⟩ := ab
      cases hl : lookup (s.mem.get s.pc) with
      | none => exact .inr (.inl ⟨rfl, rfl⟩)
      | some o => exact .inr (.inr ⟨o, a, b, rfl, rfl, rfl⟩)
  · refine .inl ⟨Nat.not_lt.mp hp, ?_⟩
    simp [fetch, State.readByte, memRead_ge _ (Nat.not_lt.mp hp)]

end Sys2Proof.Machine
end

