-- ==== Sys2Proof/Laws/Exec.lean ====
section
/-! SUPPORT. One equation for each instruction on register operands R0 to R7: the end of a step applied to its effect. With
`withReg_cases` and `withRegs_cases` for the operands above 7 they say everything an instruction does. -/

namespace Sys2Proof.Machine

theorem exec_jeq (s : State) (ra : RegIndex) :
    exec (.jeq (regByte ra)) s =
      complete .jeq s (.ok (s.writePc (if condJeq s.fl then (s.readReg ra).toNat else s.pc + 2))) := by
  simp [exec, execJeq, jumpIf, target]

theorem exec_jne (s : State) (ra : RegIndex) :
    exec (.jne (regByte ra)) s =
      complete .jne s (.ok (s.writePc (if condJne s.fl then (s.readReg ra).toNat else s.pc + 2))) := by
  simp [exec, execJne, jumpIf, target]

theorem exec_jgt (s : State) (ra : RegIndex) :
    exec (.jgt (regByte ra)) s =
      complete .jgt s (.ok (s.writePc (if condJgt s.fl then (s.readReg ra).toNat else s.pc + 2))) := by
  simp [exec, execJgt, jumpIf, target]

theorem exec_jlt (s : State) (ra : RegIndex) :
    exec (.jlt (regByte ra)) s =
      complete .jlt s (.ok (s.writePc (if condJlt s.fl then (s.readReg ra).toNat else s.pc + 2))) := by
  simp [exec, execJlt, jumpIf, target]

theorem exec_jle (s : State) (ra : RegIndex) :
    exec (.jle (regByte ra)) s =
      complete .jle s (.ok (s.writePc (if condJle s.fl then (s.readReg ra).toNat else s.pc + 2))) := by
  simp [exec, execJle, jumpIf, target]

theorem exec_jge (s : State) (ra : RegIndex) :
    exec (.jge (regByte ra)) s =
      complete .jge s (.ok (s.writePc (if condJge s.fl then (s.readReg ra).toNat else s.pc + 2))) := by
  simp [exec, execJge, jumpIf, target]

theorem exec_inc (s : State) (ra : RegIndex) :
    exec (.inc (regByte ra)) s = complete .inc s (.ok (s.writeReg ra (aluInc (s.readReg ra)).toNat)) := by
  simp [exec, execInc, aluOne, Alu.apply, writeAlu]

theorem exec_dec (s : State) (ra : RegIndex) :
    exec (.dec (regByte ra)) s = complete .dec s (.ok (s.writeReg ra (aluDec (s.readReg ra)).toNat)) := by
  simp [exec, execDec, aluOne, Alu.apply, writeAlu]

theorem exec_not (s : State) (ra : RegIndex) :
    exec (.not (regByte ra)) s = complete .not s (.ok (s.writeReg ra (aluNot (s.readReg ra)).toNat)) := by
  simp [exec, execNot, aluOne, Alu.apply, writeAlu]

theorem exec_add (s : State) (ra rb : RegIndex) :
    exec (.add (regByte ra) (regByte rb)) s =
      complete .add s (.ok (s.writeReg ra (aluAdd (s.readReg ra) (s.readReg rb)).toNat)) := by
  simp [exec, execAdd, aluTwo, Alu.apply, writeAlu]

theorem exec_sub (s : State) (ra rb : RegIndex) :
    exec (.sub (regByte ra) (regByte rb)) s =
      complete .sub s (.ok (s.writeReg ra (aluSub (s.readReg ra) (s.readReg rb)).toNat)) := by
  simp [exec, execSub, aluTwo, Alu.apply, writeAlu]

theorem exec_mul (s : State) (ra rb : RegIndex) :
    exec (.mul (regByte ra) (regByte rb)) s =
      complete .mul s (.ok (s.writeReg ra (aluMul (s.readReg ra) (s.readReg rb)).toNat)) := by
  simp [exec, execMul, aluTwo, Alu.apply, writeAlu]

theorem exec_div (s : State) (ra rb : RegIndex) :
    exec (.div (regByte ra) (regByte rb)) s =
      complete .div s (if (s.readReg rb).toNat = 0 then .error (.divisionByZero 0xA3#8)
        else .ok (s.writeReg ra (aluDiv (s.readReg ra) (s.readReg rb)).toNat)) := by
  simp only [exec, execDiv, aluTwo, Alu.apply, withRegs_regByte]
  split <;> rfl

theorem exec_mod (s : State) (ra rb : RegIndex) :
    exec (.mod (regByte ra) (regByte rb)) s =
      complete .mod s (if (s.readReg rb).toNat = 0 then .error (.divisionByZero 0xA4#8)
        else .ok (s.writeReg ra (aluMod (s.readReg ra) (s.readReg rb)).toNat)) := by
  simp only [exec, execMod, aluTwo, Alu.apply, withRegs_regByte]
  split <;> rfl

theorem exec_and (s : State) (ra rb : RegIndex) :
    exec (.and (regByte ra) (regByte rb)) s =
      complete .and s (.ok (s.writeReg ra (aluAnd (s.readReg ra) (s.readReg rb)).toNat)) := by
  simp [exec, execAnd, aluTwo, Alu.apply, writeAlu]

theorem exec_or (s : State) (ra rb : RegIndex) :
    exec (.or (regByte ra) (regByte rb)) s =
      complete .or s (.ok (s.writeReg ra (aluOr (s.readReg ra) (s.readReg rb)).toNat)) := by
  simp [exec, execOr, aluTwo, Alu.apply, writeAlu]

theorem exec_xor (s : State) (ra rb : RegIndex) :
    exec (.xor (regByte ra) (regByte rb)) s =
      complete .xor s (.ok (s.writeReg ra (aluXor (s.readReg ra) (s.readReg rb)).toNat)) := by
  simp [exec, execXor, aluTwo, Alu.apply, writeAlu]

theorem exec_shl (s : State) (ra rb : RegIndex) :
    exec (.shl (regByte ra) (regByte rb)) s =
      complete .shl s (.ok (s.writeReg ra (aluShl (s.readReg ra) (s.readReg rb)).toNat)) := by
  simp [exec, execShl, aluTwo, Alu.apply, writeAlu]

theorem exec_shr (s : State) (ra rb : RegIndex) :
    exec (.shr (regByte ra) (regByte rb)) s =
      complete .shr s (.ok (s.writeReg ra (aluShr (s.readReg ra) (s.readReg rb)).toNat)) := by
  simp [exec, execShr, aluTwo, Alu.apply, writeAlu]

theorem exec_cmp (s : State) (ra rb : RegIndex) :
    exec (.cmp (regByte ra) (regByte rb)) s =
      complete .cmp s (.ok (s.writeFl (compareFlags (s.readReg ra) (s.readReg rb)))) := by
  simp [exec, execCmp, aluTwo, Alu.apply, writeAlu]

theorem exec_ldi (s : State) (ra : RegIndex) (imm : Byte) :
    exec (.ldi (regByte ra) imm) s = complete .ldi s (.ok (s.writeReg ra imm.toNat)) := by
  simp [exec, execLdi, immediate]

theorem exec_push (s : State) (ra : RegIndex) :
    exec (.push (regByte ra)) s =
      complete .push s (.ok (s.decSp.writeMem (s.mem.set s.decSp.sp.toNat (s.decSp.readReg ra)))) := by
  simp [exec, execPush, State.push_ok _ (s.decSp.readReg ra).isLt]

theorem exec_pop (s : State) (ra : RegIndex) :
    exec (.pop (regByte ra)) s = complete .pop s (.ok (s.writeReg ra (s.mem.get s.sp.toNat).toNat).incSp) := by
  simp [exec, execPop]

theorem exec_ld (s : State) (ra rb : RegIndex) :
    exec (.ld (regByte ra) (regByte rb)) s =
      complete .ld s (.ok (s.writeReg ra (s.mem.get (s.readReg rb).toNat).toNat)) := by
  simp [exec, execLd, loadIndirect, indirect]

theorem exec_st (s : State) (ra rb : RegIndex) :
    exec (.st (regByte ra) (regByte rb)) s =
      complete .st s (.ok (s.writeMem (s.mem.set (s.readReg ra).toNat (s.readReg rb)))) := by
  simp [exec, execSt, storeIndirect, indirect, State.storeByte_byte _ _ (s.readReg rb).isLt]

theorem exec_jmp (s : State) (ra : RegIndex) :
    exec (.jmp (regByte ra)) s = complete .jmp s (.ok (s.writePc (s.readReg ra).toNat)) := by
  simp [exec, execJmp, target]

theorem exec_call (s : State) (ra : RegIndex) (h : s.pc + 2 < 256) :
    exec (.call (regByte ra)) s =
      complete .call s (.ok ((s.decSp.writeMem (s.mem.set s.decSp.sp.toNat (BitVec.ofNat 8 (s.pc + 2)))).writePc
        (s.decSp.readReg ra).toNat)) := by
  simp [exec, execCall, State.push_ok _ h, target]

theorem exec_call_invalidValue (s : State) (ra : RegIndex) (h : 256 ≤ s.pc + 2) :
    exec (.call (regByte ra)) s = complete .call s (.error (.invalidValue (s.pc + 2))) := by
  simp [exec, execCall, State.push_invalidValue _ h]

theorem exec_ret (s : State) :
    exec .ret s = complete .ret s (.ok (s.incSp.writePc (s.mem.get s.sp.toNat).toNat)) := by
  simp [exec, execRet]

theorem exec_nop (s : State) : exec .nop s = complete .nop s (.ok s) := rfl

theorem exec_hlt (s : State) : exec .hlt s = .next s.halt := by
  simp [exec, execHlt, advancePc]

theorem exec_prn (s : State) (ra : RegIndex) :
    exec (.prn (regByte ra)) s = complete .prn s (.ok (s.emit (.dec (s.readReg ra)))) := by
  simp [exec, execPrn]

theorem exec_pra (s : State) (ra : RegIndex) :
    exec (.pra (regByte ra)) s = complete .pra s (.ok (s.emit (.chr (s.readReg ra)))) := by
  simp [exec, execPra]

theorem exec_int (s : State) (a : Byte) : exec (.int a) s = .next (raise (.unsupportedOperation 0x52#8) s) := rfl

theorem exec_iret (s : State) : exec .iret s = .next (raise (.unsupportedOperation 0x13#8) s) := rfl

/-! ### Everything an instruction can do -/

/-- The shapes of effect a completed instruction `i` has on the state `s` it started in, before the automatic PC
advance. -/
inductive Effect (s : State) : Instr → State → Prop where
  /-- An ALU instruction with a result, LDI or LD: the first operand register is written. -/
  | reg (i : Instr) (ra : RegIndex) (v : Byte) (hs : (describe i.op.opcode).setsPc = false)
      (ha : i.operands.head? = some (regByte ra)) (hc : i.op ≠ .cmp) (hh : i.op ≠ .hlt) :
      Effect s i (s.writeReg ra v.toNat)
  | cmp (ra rb : RegIndex) :
      Effect s (.cmp (regByte ra) (regByte rb)) (s.writeFl (compareFlags (s.readReg ra) (s.readReg rb)))
  | push (ra : RegIndex) :
      Effect s (.push (regByte ra)) (s.decSp.writeMem (s.mem.set s.decSp.sp.toNat (s.decSp.readReg ra)))
  | pop (ra : RegIndex) : Effect s (.pop (regByte ra)) (s.writeReg ra (s.mem.get s.sp.toNat).toNat).incSp
  | st (ra rb : RegIndex) :
      Effect s (.st (regByte ra) (regByte rb)) (s.writeMem (s.mem.set (s.readReg ra).toNat (s.readReg rb)))
  /-- A jump, taken or not. -/
  | jump (i : Instr) (ra : RegIndex) (t : Nat) (hs : (describe i.op.opcode).setsPc = true)
      (ha : i.operands = [regByte ra]) (ht : t = (s.readReg ra).toNat ∨ t = s.pc + 2) : Effect s i (s.writePc t)
  | call (ra : RegIndex) (h : s.pc + 2 < 256) :
      Effect s (.call (regByte ra)) ((s.decSp.writeMem (s.mem.set s.decSp.sp.toNat (BitVec.ofNat 8 (s.pc + 2)))).writePc
        (s.decSp.readReg ra).toNat)
  | ret : Effect s .ret (s.incSp.writePc (s.mem.get s.sp.toNat).toNat)
  | nop : Effect s .nop s
  | hlt : Effect s .hlt s.halt
  | prn (ra : RegIndex) : Effect s (.prn (regByte ra)) (s.emit (.dec (s.readReg ra)))
  | pra (ra : RegIndex) : Effect s (.pra (regByte ra)) (s.emit (.chr (s.readReg ra)))

/-- The faults an instruction `i` takes in `s`, each with the condition it takes it under. -/
inductive FaultOf (s : State) : Instr → Fault → Prop where
  | invalidRegister (i : Instr) (a : Byte) (ha : a ∈ i.regOperands) (h8 : 8 ≤ a.toNat) : FaultOf s i (.invalidRegister a)
  | div (ra rb : RegIndex) (h : (s.readReg rb).toNat = 0) :
      FaultOf s (.div (regByte ra) (regByte rb)) (.divisionByZero 0xA3#8)
  | mod (ra rb : RegIndex) (h : (s.readReg rb).toNat = 0) :
      FaultOf s (.mod (regByte ra) (regByte rb)) (.divisionByZero 0xA4#8)
  | call (ra : RegIndex) (h : 256 ≤ s.pc + 2) : FaultOf s (.call (regByte ra)) (.invalidValue (s.pc + 2))
  | int (a : Byte) : FaultOf s (.int a) (.unsupportedOperation 0x52#8)
  | iret : FaultOf s .iret (.unsupportedOperation 0x13#8)

/-- Inversion of `exec`: a fault with its reason, or an effect and the PC advance; there is nothing else. -/
def Answers (i : Instr) (s : State) : Prop :=
  (∃ f, FaultOf s i f ∧ exec i s = .next (raise f s)) ∨
  (∃ u, Effect s i u ∧ exec i s = .next (advancePc (describe i.op.opcode) u))

theorem answers_two (mk : Byte → Byte → Instr) (o : Op) (body : State → RegIndex → RegIndex → Except Fault State)
    (h : ∀ a b s, exec (mk a b) s = withRegs o a b s (body s)) (hr : ∀ a b, (mk a b).regOperands = [a, b])
    (hv : ∀ ra rb s, Answers (mk (regByte ra) (regByte rb)) s) (a b : Byte) (s : State) : Answers (mk a b) s := by
  by_cases ha : a.toNat < 8
  · by_cases hb : b.toNat < 8
    · obtain ⟨ra, rfl⟩ := reg_of_lt ha
      obtain ⟨rb, rfl⟩ := reg_of_lt hb
      exact hv ra rb s
    · obtain ⟨ra, rfl⟩ := reg_of_lt ha
      refine .inl ⟨_, .invalidRegister _ b (by simp [hr]) (Nat.not_lt.mp hb), ?_⟩
      rw [h, withRegs_bad_second o ra (Nat.not_lt.mp hb)]
  · refine .inl ⟨_, .invalidRegister _ a (by simp [hr]) (Nat.not_lt.mp ha), ?_⟩
    rw [h, withRegs_bad_first o b (Nat.not_lt.mp ha)]

theorem answers_one (mk : Byte → Instr) (o : Op) (body : State → RegIndex → Except Fault State)
    (h : ∀ a s, exec (mk a) s = withReg o a s (body s)) (hr : ∀ a, (mk a).regOperands = [a])
    (hv : ∀ ra s, Answers (mk (regByte ra)) s) (a : Byte) (s : State) : Answers (mk a) s := by
  by_cases ha : a.toNat < 8
  · obtain ⟨ra, rfl⟩ := reg_of_lt ha
    exact hv ra s
  · refine .inl ⟨_, .invalidRegister _ a (by simp [hr]) (Nat.not_lt.mp ha), ?_⟩
    rw [h, withReg_bad o (Nat.not_lt.mp ha)]

/-- Every instruction in every state either takes a fault or completes. -/
theorem exec_answers (i : Instr) (s : State) : Answers i s := by
  cases i with
  | nop =>
    exact .inr ⟨_, .nop, exec_nop s⟩
  | hlt =>
    exact .inr ⟨_, .hlt, rfl⟩
  | ret =>
    exact .inr ⟨_, .ret, exec_ret s⟩
  | iret =>
    exact .inl ⟨_, .iret, rfl⟩
  | push a =>
    refine answers_one .push .push _ (fun _ _ => rfl) (fun _ => rfl) (fun ra s => ?_) a s
    exact .inr ⟨_, .push ra, exec_push s ra⟩
  | pop a =>
    refine answers_one .pop .pop _ (fun _ _ => rfl) (fun _ => rfl) (fun ra s => ?_) a s
    exact .inr ⟨_, .pop ra, exec_pop s ra⟩
  | prn a =>
    refine answers_one .prn .prn _ (fun _ _ => rfl) (fun _ => rfl) (fun ra s => ?_) a s
    exact .inr ⟨_, .prn ra, exec_prn s ra⟩
  | pra a =>
    refine answers_one .pra .pra _ (fun _ _ => rfl) (fun _ => rfl) (fun ra s => ?_) a s
    exact .inr ⟨_, .pra ra, exec_pra s ra⟩
  | call a =>
    refine answers_one .call .call _ (fun _ _ => rfl) (fun _ => rfl) (fun ra s => ?_) a s
    by_cases hp : s.pc + 2 < 256
    · exact .inr ⟨_, .call ra hp, exec_call s ra hp⟩
    · exact .inl ⟨_, .call ra (Nat.not_lt.mp hp), exec_call_invalidValue s ra (Nat.not_lt.mp hp)⟩
  | int a =>
    exact .inl ⟨_, .int a, rfl⟩
  | jmp a =>
    refine answers_one .jmp .jmp _ (fun _ _ => rfl) (fun _ => rfl) (fun ra s => ?_) a s
    exact .inr ⟨_, .jump _ ra _ (show (describe Op.jmp.opcode).setsPc = true by decide) rfl (.inl rfl), exec_jmp s ra⟩
  | jeq a =>
    refine answers_one .jeq .jeq _ (fun _ _ => rfl) (fun _ => rfl) (fun ra s => ?_) a s
    exact .inr ⟨_, .jump _ ra _ (show (describe Op.jeq.opcode).setsPc = true by decide) rfl (by split <;> simp), exec_jeq s ra⟩
  | jne a =>
    refine answers_one .jne .jne _ (fun _ _ => rfl) (fun _ => rfl) (fun ra s => ?_) a s
    exact .inr ⟨_, .jump _ ra _ (show (describe Op.jne.opcode).setsPc = true by decide) rfl (by split <;> simp), exec_jne s ra⟩
  | jgt a =>
    refine answers_one .jgt .jgt _ (fun _ _ => rfl) (fun _ => rfl) (fun ra s => ?_) a s
    exact .inr ⟨_, .jump _ ra _ (show (describe Op.jgt.opcode).setsPc = true by decide) rfl (by split <;> simp), exec_jgt s ra⟩
  | jlt a =>
    refine answers_one .jlt .jlt _ (fun _ _ => rfl) (fun _ => rfl) (fun ra s => ?_) a s
    exact .inr ⟨_, .jump _ ra _ (show (describe Op.jlt.opcode).setsPc = true by decide) rfl (by split <;> simp), exec_jlt s ra⟩
  | jle a =>
    refine answers_one .jle .jle _ (fun _ _ => rfl) (fun _ => rfl) (fun ra s => ?_) a s
    exact .inr ⟨_, .jump _ ra _ (show (describe Op.jle.opcode).setsPc = true by decide) rfl (by split <;> simp), exec_jle s ra⟩
  | jge a =>
    refine answers_one .jge .jge _ (fun _ _ => rfl) (fun _ => rfl) (fun ra s => ?_) a s
    exact .inr ⟨_, .jump _ ra _ (show (describe Op.jge.opcode).setsPc = true by decide) rfl (by split <;> simp), exec_jge s ra⟩
  | inc a =>
    refine answers_one .inc .inc _ (fun _ _ => rfl) (fun _ => rfl) (fun ra s => ?_) a s
    exact .inr ⟨_, .reg _ ra _ (show (describe Op.inc.opcode).setsPc = false by decide) rfl (by simp [Instr.op])
        (by simp [Instr.op]), exec_inc s ra⟩
  | dec a =>
    refine answers_one .dec .dec _ (fun _ _ => rfl) (fun _ => rfl) (fun ra s => ?_) a s
    exact .inr ⟨_, .reg _ ra _ (show (describe Op.dec.opcode).setsPc = false by decide) rfl (by simp [Instr.op])
        (by simp [Instr.op]), exec_dec s ra⟩
  | not a =>
    refine answers_one .not .not _ (fun _ _ => rfl) (fun _ => rfl) (fun ra s => ?_) a s
    exact .inr ⟨_, .reg _ ra _ (show (describe Op.not.opcode).setsPc = false by decide) rfl (by simp [Instr.op])
        (by simp [Instr.op]), exec_not s ra⟩
  | ldi a imm =>
    refine answers_one (fun a => .ldi a imm) .ldi _ (fun _ _ => rfl) (fun _ => rfl) (fun ra s => ?_) a s
    exact .inr ⟨_, .reg _ ra _ (show (describe Op.ldi.opcode).setsPc = false by decide) rfl (by simp [Instr.op])
        (by simp [Instr.op]), exec_ldi s ra imm⟩
  | ld a b =>
    refine answers_two .ld .ld _ (fun _ _ _ => rfl) (fun _ _ => rfl) (fun ra rb s => ?_) a b s
    exact .inr ⟨_, .reg _ ra _ (show (describe Op.ld.opcode).setsPc = false by decide) rfl (by simp [Instr.op])
        (by simp [Instr.op]), exec_ld s ra rb⟩
  | st a b =>
    refine answers_two .st .st _ (fun _ _ _ => rfl) (fun _ _ => rfl) (fun ra rb s => ?_) a b s
    exact .inr ⟨_, .st ra rb, exec_st s ra rb⟩
  | add a b =>
    refine answers_two .add .add _ (fun _ _ _ => rfl) (fun _ _ => rfl) (fun ra rb s => ?_) a b s
    exact .inr ⟨_, .reg _ ra _ (show (describe Op.add.opcode).setsPc = false by decide) rfl (by simp [Instr.op])
        (by simp [Instr.op]), exec_add s ra rb⟩
  | sub a b =>
    refine answers_two .sub .sub _ (fun _ _ _ => rfl) (fun _ _ => rfl) (fun ra rb s => ?_) a b s
    exact .inr ⟨_, .reg _ ra _ (show (describe Op.sub.opcode).setsPc = false by decide) rfl (by simp [Instr.op])
        (by simp [Instr.op]), exec_sub s ra rb⟩
  | mul a b =>
    refine answers_two .mul .mul _ (fun _ _ _ => rfl) (fun _ _ => rfl) (fun ra rb s => ?_) a b s
    exact .inr ⟨_, .reg _ ra _ (show (describe Op.mul.opcode).setsPc = false by decide) rfl (by simp [Instr.op])
        (by simp [Instr.op]), exec_mul s ra rb⟩
  | div a b =>
    refine answers_two .div .div _ (fun _ _ _ => rfl) (fun _ _ => rfl) (fun ra rb s => ?_) a b s
    by_cases hz : (s.readReg rb).toNat = 0
    · exact .inl ⟨_, .div ra rb hz, by rw [exec_div, if_pos hz]; rfl⟩
    · exact .inr ⟨_, .reg _ ra _ (show (describe Op.div.opcode).setsPc = false by decide) rfl (by simp [Instr.op])
        (by simp [Instr.op]), by rw [exec_div, if_neg hz]; rfl⟩
  | mod a b =>
    refine answers_two .mod .mod _ (fun _ _ _ => rfl) (fun _ _ => rfl) (fun ra rb s => ?_) a b s
    by_cases hz : (s.readReg rb).toNat = 0
    · exact .inl ⟨_, .mod ra rb hz, by rw [exec_mod, if_pos hz]; rfl⟩
    · exact .inr ⟨_, .reg _ ra _ (show (describe Op.mod.opcode).setsPc = false by decide) rfl (by simp [Instr.op])
        (by simp [Instr.op]), by rw [exec_mod, if_neg hz]; rfl⟩
  | cmp a b =>
    refine answers_two .cmp .cmp _ (fun _ _ _ => rfl) (fun _ _ => rfl) (fun ra rb s => ?_) a b s
    exact .inr ⟨_, .cmp ra rb, exec_cmp s ra rb⟩
  | and a b =>
    refine answers_two .and .and _ (fun _ _ _ => rfl) (fun _ _ => rfl) (fun ra rb s => ?_) a b s
    exact .inr ⟨_, .reg _ ra _ (show (describe Op.and.opcode).setsPc = false by decide) rfl (by simp [Instr.op])
        (by simp [Instr.op]), exec_and s ra rb⟩
  | or a b =>
    refine answers_two .or .or _ (fun _ _ _ => rfl) (fun _ _ => rfl) (fun ra rb s => ?_) a b s
    exact .inr ⟨_, .reg _ ra _ (show (describe Op.or.opcode).setsPc = false by decide) rfl (by simp [Instr.op])
        (by simp [Instr.op]), exec_or s ra rb⟩
  | xor a b =>
    refine answers_two .xor .xor _ (fun _ _ _ => rfl) (fun _ _ => rfl) (fun ra rb s => ?_) a b s
    exact .inr ⟨_, .reg _ ra _ (show (describe Op.xor.opcode).setsPc = false by decide) rfl (by simp [Instr.op])
        (by simp [Instr.op]), exec_xor s ra rb⟩
  | shl a b =>
    refine answers_two .shl .shl _ (fun _ _ _ => rfl) (fun _ _ => rfl) (fun ra rb s => ?_) a b s
    exact .inr ⟨_, .reg _ ra _ (show (describe Op.shl.opcode).setsPc = false by decide) rfl (by simp [Instr.op])
        (by simp [Instr.op]), exec_shl s ra rb⟩
  | shr a b =>
    refine answers_two .shr .shr _ (fun _ _ _ => rfl) (fun _ _ => rfl) (fun ra rb s => ?_) a b s
    exact .inr ⟨_, .reg _ ra _ (show (describe Op.shr.opcode).setsPc = false by decide) rfl (by simp [Instr.op])
        (by simp [Instr.op]), exec_shr s ra rb⟩

/-- Everything an instruction that answers a next state can have done. -/
theorem exec_cases {i : Instr} {s t : State} (h : exec i s = .next t) :
    (∃ f, FaultOf s i f ∧ t = raise f s) ∨ (∃ u, Effect s i u ∧ t = advancePc (describe i.op.opcode) u) := by
  rcases exec_answers i s with ⟨f, hf, e⟩ | ⟨u, hu, e⟩
  · rw [h] at e
    cases e
    exact .inl ⟨f, hf, rfl⟩
  · rw [h] at e
    cases e
    exact .inr ⟨u, hu, rfl⟩

/-! ### What an effect does to each field -/

theorem Effect.err {s u : State} {i : Instr} (h : Effect s i u) : u.err = s.err := by
  cases h <;> rfl

theorem Effect.ir {s u : State} {i : Instr} (h : Effect s i u) : u.ir = s.ir := by
  cases h <;> rfl

/-- Only HLT changes RUN (44_system.md R126). -/
theorem Effect.run {s u : State} {i : Instr} (h : Effect s i u) :
    (i ≠ .hlt ∧ u.run = s.run) ∨ (i = .hlt ∧ u.run = .halted) := by
  cases h with
  | hlt => exact .inr ⟨rfl, rfl⟩
  | reg _ _ _ _ _ _ hh => exact .inl ⟨fun e => hh (by rw [e]; rfl), rfl⟩
  | jump _ _ _ hs =>
    refine .inl ⟨fun e => ?_, rfl⟩
    subst e
    exact absurd hs (by decide)
  | _ => exact .inl ⟨by simp, rfl⟩

/-- Only CMP changes FL (10_state.md R16). -/
theorem Effect.fl {s u : State} {i : Instr} (h : Effect s i u) :
    u.fl = s.fl ∨ (i.op = .cmp ∧ ∃ va vb, u.fl = compareFlags va vb) := by
  cases h with
  | cmp => exact .inr ⟨rfl, _, _, rfl⟩
  | _ => exact .inl rfl

/-- Only PUSH, CALL and ST change memory, one cell each (20_memory.md R36). -/
theorem Effect.mem {s u : State} {i : Instr} (h : Effect s i u) :
    u.mem = s.mem ∨ ∃ (addr : Byte) (v : Byte), u.mem = s.mem.set addr.toNat v ∧
      (((i.op = .push ∨ i.op = .call) ∧ addr = s.decSp.sp) ∨
        (i.op = .st ∧ ∃ ra, i.operands.head? = some (regByte ra) ∧ addr = s.readReg ra)) := by
  cases h with
  | push ra => exact .inr ⟨_, _, rfl, .inl ⟨.inl rfl, rfl⟩⟩
  | call ra => exact .inr ⟨_, _, rfl, .inl ⟨.inr rfl, rfl⟩⟩
  | st ra rb => exact .inr ⟨_, _, rfl, .inr ⟨rfl, ra, rfl, rfl⟩⟩
  | _ => exact .inl rfl

/-- Only PRN and PRA change OUT, by one event at its end (10_state.md R20). -/
theorem Effect.out {s u : State} {i : Instr} (h : Effect s i u) :
    u.out = s.out ∨ (∃ v, i.op = .prn ∧ u.out = s.out ++ [.dec v]) ∨ (∃ v, i.op = .pra ∧ u.out = s.out ++ [.chr v]) := by
  cases h with
  | prn ra => exact .inr (.inl ⟨_, rfl, rfl⟩)
  | pra ra => exact .inr (.inr ⟨_, rfl, rfl⟩)
  | _ => exact .inl rfl

/-- A register that changes is the first operand, or SP under PUSH, POP, CALL or RET (10_state.md R12). -/
theorem Effect.readReg {s u : State} {i : Instr} (h : Effect s i u) (r : RegIndex) :
    u.readReg r = s.readReg r ∨ i.operands.head? = some (regByte r) ∨
      (r = Config.spIndex ∧ (i.op = .push ∨ i.op = .pop ∨ i.op = .call ∨ i.op = .ret)) := by
  by_cases h7 : r = Config.spIndex
  · subst h7
    cases h with
    | reg _ ra _ _ ha =>
      by_cases hr : Config.spIndex = ra
      · subst hr; exact .inr (.inl ha)
      · exact .inl (s.readReg_writeReg_ne _ hr)
    | push => exact .inr (.inr ⟨rfl, .inl rfl⟩)
    | pop => exact .inr (.inr ⟨rfl, .inr (.inl rfl)⟩)
    | call => exact .inr (.inr ⟨rfl, .inr (.inr (.inl rfl))⟩)
    | ret => exact .inr (.inr ⟨rfl, .inr (.inr (.inr rfl))⟩)
    | _ => exact .inl rfl
  · cases h with
    | reg _ ra _ _ ha =>
      by_cases hr : r = ra
      · subst hr; exact .inr (.inl ha)
      · exact .inl (s.readReg_writeReg_ne _ hr)
    | pop ra =>
      by_cases hr : r = ra
      · subst hr; exact .inr (.inl rfl)
      · exact .inl ((State.readReg_incSp_ne _ h7).trans (s.readReg_writeReg_ne _ hr))
    | push => exact .inl (s.readReg_decSp_ne h7)
    | call => exact .inl (s.readReg_decSp_ne h7)
    | ret => exact .inl (s.readReg_incSp_ne h7)
    | _ => exact .inl rfl

/-- An instruction whose opcode has bit 4 = 0 does not write PC itself (10_state.md R15). -/
theorem Effect.pc {s u : State} {i : Instr} (h : Effect s i u) (hs : (describe i.op.opcode).setsPc = false) :
    u.pc = s.pc := by
  cases h with
  | jump _ _ _ hs' => rw [hs] at hs'; cases hs'
  | call => exact absurd hs (by simp only [Instr.op]; decide)
  | ret => exact absurd hs (by decide)
  | _ => rfl

/-- An instruction raises no fetch fault (20_memory.md R33). -/
theorem FaultOf.ne_fetch {s : State} {i : Instr} {f : Fault} (h : FaultOf s i f) :
    (∀ addr, f ≠ .outOfBounds addr) ∧ (∀ op, f ≠ .unknownOpcode op) := by
  cases h <;> simp

/-- Everything a step that answers a next state can have done: a fetch fault, UnknownOpcode, or the execution of the
instruction at PC, its bytes in memory, IR written. -/
theorem step_cases {s t : State} (h : step s = .next t) :
    s.run = .running ∧
    ((256 ≤ s.pc ∧ t = raise (.outOfBounds s.pc) s) ∨
     (∃ op, s.readByte s.pc = .ok op ∧
      ((∃ f, fetchOperands op (s.writeIr op) = .error f ∧ t = raise f (s.writeIr op)) ∨
       (lookup op = none ∧ t = raise (.unknownOpcode op) (s.writeIr op)) ∨
       (∃ o a b, lookup op = some o ∧ fetchOperands op (s.writeIr op) = .ok (a, b) ∧
          exec (build o a b) (s.writeIr op) = .next t)))) := by
  cases hr : s.run with
  | halted => rw [step_halted hr] at h; cases h
  | running =>
    refine ⟨rfl, ?_⟩
    rw [step_running hr] at h
    rcases fetch_cases s with ⟨hp, e⟩ | ⟨op, ho, ⟨f, hf, e⟩ | ⟨hl, e⟩ | ⟨o, a, b, hl, hf, e⟩⟩ <;> simp only [e] at h
    · cases h; exact .inl ⟨hp, rfl⟩
    · cases h; exact .inr ⟨op, ho, .inl ⟨f, hf, rfl⟩⟩
    · cases h; exact .inr ⟨op, ho, .inr (.inl ⟨hl, rfl⟩)⟩
    · exact .inr ⟨op, ho, .inr (.inr ⟨o, a, b, hl, hf, h⟩)⟩

end Sys2Proof.Machine
end

