-- ==== Sys2Proof/Laws/PerInstr.lean ====
section
/-! SUPPORT. A law of every instruction, one lemma for each constructor: its length is one byte and the operand bytes its
opcode's two top bits count (spec/30_encoding.md R50, R51). -/

namespace Sys2Proof

theorem encode_length (i : Instr) : (encode i).length = 1 + (describe i.op.opcode).operandCount := by
  simp only [encode, List.length_cons, operands_length]
  omega

theorem encode_length_le (i : Instr) : (encode i).length ≤ 3 := by
  have := operandCount_opcode_le i.op
  rw [encode_length]
  omega

end Sys2Proof

namespace Sys2Proof.Laws.EncodeLength

/-- `length = 1 + operand_count`, from 1 to 3 bytes (R50). -/
def Statement (i : Instr) : Prop :=
  (encode i).length = 1 + (describe i.op.opcode).operandCount ∧ (encode i).length ≤ 3

theorem nop : Statement .nop := ⟨encode_length _, encode_length_le _⟩
theorem hlt : Statement .hlt := ⟨encode_length _, encode_length_le _⟩
theorem ret : Statement .ret := ⟨encode_length _, encode_length_le _⟩
theorem iret : Statement .iret := ⟨encode_length _, encode_length_le _⟩
theorem push (a : Byte) : Statement (.push a) := ⟨encode_length _, encode_length_le _⟩
theorem pop (a : Byte) : Statement (.pop a) := ⟨encode_length _, encode_length_le _⟩
theorem prn (a : Byte) : Statement (.prn a) := ⟨encode_length _, encode_length_le _⟩
theorem pra (a : Byte) : Statement (.pra a) := ⟨encode_length _, encode_length_le _⟩
theorem call (a : Byte) : Statement (.call a) := ⟨encode_length _, encode_length_le _⟩
theorem int (a : Byte) : Statement (.int a) := ⟨encode_length _, encode_length_le _⟩
theorem jmp (a : Byte) : Statement (.jmp a) := ⟨encode_length _, encode_length_le _⟩
theorem jeq (a : Byte) : Statement (.jeq a) := ⟨encode_length _, encode_length_le _⟩
theorem jne (a : Byte) : Statement (.jne a) := ⟨encode_length _, encode_length_le _⟩
theorem jgt (a : Byte) : Statement (.jgt a) := ⟨encode_length _, encode_length_le _⟩
theorem jlt (a : Byte) : Statement (.jlt a) := ⟨encode_length _, encode_length_le _⟩
theorem jle (a : Byte) : Statement (.jle a) := ⟨encode_length _, encode_length_le _⟩
theorem jge (a : Byte) : Statement (.jge a) := ⟨encode_length _, encode_length_le _⟩
theorem inc (a : Byte) : Statement (.inc a) := ⟨encode_length _, encode_length_le _⟩
theorem dec (a : Byte) : Statement (.dec a) := ⟨encode_length _, encode_length_le _⟩
theorem not (a : Byte) : Statement (.not a) := ⟨encode_length _, encode_length_le _⟩
theorem ldi (a imm : Byte) : Statement (.ldi a imm) := ⟨encode_length _, encode_length_le _⟩
theorem ld (a b : Byte) : Statement (.ld a b) := ⟨encode_length _, encode_length_le _⟩
theorem st (a b : Byte) : Statement (.st a b) := ⟨encode_length _, encode_length_le _⟩
theorem add (a b : Byte) : Statement (.add a b) := ⟨encode_length _, encode_length_le _⟩
theorem sub (a b : Byte) : Statement (.sub a b) := ⟨encode_length _, encode_length_le _⟩
theorem mul (a b : Byte) : Statement (.mul a b) := ⟨encode_length _, encode_length_le _⟩
theorem div (a b : Byte) : Statement (.div a b) := ⟨encode_length _, encode_length_le _⟩
theorem mod (a b : Byte) : Statement (.mod a b) := ⟨encode_length _, encode_length_le _⟩
theorem cmp (a b : Byte) : Statement (.cmp a b) := ⟨encode_length _, encode_length_le _⟩
theorem and (a b : Byte) : Statement (.and a b) := ⟨encode_length _, encode_length_le _⟩
theorem or (a b : Byte) : Statement (.or a b) := ⟨encode_length _, encode_length_le _⟩
theorem xor (a b : Byte) : Statement (.xor a b) := ⟨encode_length _, encode_length_le _⟩
theorem shl (a b : Byte) : Statement (.shl a b) := ⟨encode_length _, encode_length_le _⟩
theorem shr (a b : Byte) : Statement (.shr a b) := ⟨encode_length _, encode_length_le _⟩

end Sys2Proof.Laws.EncodeLength
end

