-- ==== Sys2Proof/Tests/Slice0.lean ====
section
/-! SUPPORT. Tests of the model against the spec's own tables and vectors (spec/30_encoding.md, 95_test_vectors.md), each
with its source, and one witness for each obligation that has hypotheses. -/

namespace Sys2Proof.Tests

open Sys2Proof.Machine

/-! ### Helpers -/

/-- The state after reset with bytes written from an address up. -/
def place (addr : Nat) (bytes : List Byte) (s : State) : State := s.writeMem (s.mem.install addr bytes)

/-- A register set. -/
def setReg (r : RegIndex) (v : Byte) (s : State) : State := s.writeReg r v.toNat

/-- An instruction's bytes placed at an address, PC there. -/
def ready (addr : Nat) (bytes : List Byte) : State := (place addr bytes State.reset).writePc addr

/-- What is read of the next state of a step, none if the step answers no next state. -/
def after {α : Type} (o : Host.Outcome State Fault Refusal) (read : State → α) : Option α :=
  match o with
  | .next t => some (read t)
  | .fault _ => none
  | .refused _ => none

/-- One register, FL and PC. -/
def seen (r : RegIndex) (t : State) : Byte × Byte × Nat := (t.readReg r, t.fl, t.pc)

/-- ERR, PC and IR. -/
def fault (t : State) : Option Fault × Nat × Byte := (t.err, t.pc, t.ir)

/-! ### Decoding: each row of 30_encoding.md R54, its opcode byte written out bit by bit from the table's `encoding` -/

theorem test_decode_nop : decode [0b00000000#8, 0xEE#8] = .ok (.nop, [0xEE#8]) := by decide
theorem test_decode_hlt : decode [0b00000001#8, 0xEE#8] = .ok (.hlt, [0xEE#8]) := by decide
theorem test_decode_ret : decode [0b00010001#8, 0xEE#8] = .ok (.ret, [0xEE#8]) := by decide
theorem test_decode_iret : decode [0b00010011#8, 0xEE#8] = .ok (.iret, [0xEE#8]) := by decide
theorem test_decode_push : decode [0b01000101#8, 0x03#8, 0xEE#8] = .ok (.push 0x03#8, [0xEE#8]) := by decide
theorem test_decode_pop : decode [0b01000110#8, 0x03#8, 0xEE#8] = .ok (.pop 0x03#8, [0xEE#8]) := by decide
theorem test_decode_prn : decode [0b01000111#8, 0x03#8, 0xEE#8] = .ok (.prn 0x03#8, [0xEE#8]) := by decide
theorem test_decode_pra : decode [0b01001000#8, 0x03#8, 0xEE#8] = .ok (.pra 0x03#8, [0xEE#8]) := by decide
theorem test_decode_call : decode [0b01010000#8, 0x03#8, 0xEE#8] = .ok (.call 0x03#8, [0xEE#8]) := by decide
theorem test_decode_int : decode [0b01010010#8, 0x03#8, 0xEE#8] = .ok (.int 0x03#8, [0xEE#8]) := by decide
theorem test_decode_jmp : decode [0b01010100#8, 0x03#8, 0xEE#8] = .ok (.jmp 0x03#8, [0xEE#8]) := by decide
theorem test_decode_jeq : decode [0b01010101#8, 0x03#8, 0xEE#8] = .ok (.jeq 0x03#8, [0xEE#8]) := by decide
theorem test_decode_jne : decode [0b01010110#8, 0x03#8, 0xEE#8] = .ok (.jne 0x03#8, [0xEE#8]) := by decide
theorem test_decode_jgt : decode [0b01010111#8, 0x03#8, 0xEE#8] = .ok (.jgt 0x03#8, [0xEE#8]) := by decide
theorem test_decode_jlt : decode [0b01011000#8, 0x03#8, 0xEE#8] = .ok (.jlt 0x03#8, [0xEE#8]) := by decide
theorem test_decode_jle : decode [0b01011001#8, 0x03#8, 0xEE#8] = .ok (.jle 0x03#8, [0xEE#8]) := by decide
theorem test_decode_jge : decode [0b01011010#8, 0x03#8, 0xEE#8] = .ok (.jge 0x03#8, [0xEE#8]) := by decide
theorem test_decode_inc : decode [0b01100101#8, 0x03#8, 0xEE#8] = .ok (.inc 0x03#8, [0xEE#8]) := by decide
theorem test_decode_dec : decode [0b01100110#8, 0x03#8, 0xEE#8] = .ok (.dec 0x03#8, [0xEE#8]) := by decide
theorem test_decode_not : decode [0b01101001#8, 0x03#8, 0xEE#8] = .ok (.not 0x03#8, [0xEE#8]) := by decide
theorem test_decode_ldi : decode [0b10000010#8, 0x06#8, 0x01#8, 0xEE#8] = .ok (.ldi 0x06#8 0x01#8, [0xEE#8]) := by decide
theorem test_decode_ld : decode [0b10000011#8, 0x06#8, 0x01#8, 0xEE#8] = .ok (.ld 0x06#8 0x01#8, [0xEE#8]) := by decide
theorem test_decode_st : decode [0b10000100#8, 0x06#8, 0x01#8, 0xEE#8] = .ok (.st 0x06#8 0x01#8, [0xEE#8]) := by decide
theorem test_decode_add : decode [0b10100000#8, 0x06#8, 0x01#8, 0xEE#8] = .ok (.add 0x06#8 0x01#8, [0xEE#8]) := by decide
theorem test_decode_sub : decode [0b10100001#8, 0x06#8, 0x01#8, 0xEE#8] = .ok (.sub 0x06#8 0x01#8, [0xEE#8]) := by decide
theorem test_decode_mul : decode [0b10100010#8, 0x06#8, 0x01#8, 0xEE#8] = .ok (.mul 0x06#8 0x01#8, [0xEE#8]) := by decide
theorem test_decode_div : decode [0b10100011#8, 0x06#8, 0x01#8, 0xEE#8] = .ok (.div 0x06#8 0x01#8, [0xEE#8]) := by decide
theorem test_decode_mod : decode [0b10100100#8, 0x06#8, 0x01#8, 0xEE#8] = .ok (.mod 0x06#8 0x01#8, [0xEE#8]) := by decide
theorem test_decode_cmp : decode [0b10100111#8, 0x06#8, 0x01#8, 0xEE#8] = .ok (.cmp 0x06#8 0x01#8, [0xEE#8]) := by decide
theorem test_decode_and : decode [0b10101000#8, 0x06#8, 0x01#8, 0xEE#8] = .ok (.and 0x06#8 0x01#8, [0xEE#8]) := by decide
theorem test_decode_or : decode [0b10101010#8, 0x06#8, 0x01#8, 0xEE#8] = .ok (.or 0x06#8 0x01#8, [0xEE#8]) := by decide
theorem test_decode_xor : decode [0b10101011#8, 0x06#8, 0x01#8, 0xEE#8] = .ok (.xor 0x06#8 0x01#8, [0xEE#8]) := by decide
theorem test_decode_shl : decode [0b10101100#8, 0x06#8, 0x01#8, 0xEE#8] = .ok (.shl 0x06#8 0x01#8, [0xEE#8]) := by decide
theorem test_decode_shr : decode [0b10101101#8, 0x06#8, 0x01#8, 0xEE#8] = .ok (.shr 0x06#8 0x01#8, [0xEE#8]) := by decide

/-- 95_test_vectors.md section 2.5, the descriptor table. -/
theorem test_descriptors :
    describe 0x82#8 = ⟨2, false, false, some .ldi⟩ ∧ describe 0x47#8 = ⟨1, false, false, some .prn⟩ ∧
    describe 0xA7#8 = ⟨2, true, false, some .cmp⟩ ∧ describe 0x65#8 = ⟨1, true, false, some .inc⟩ ∧
    describe 0x55#8 = ⟨1, false, true, some .jeq⟩ ∧ describe 0x13#8 = ⟨0, false, true, some .iret⟩ ∧
    describe 0xA5#8 = ⟨2, true, false, none⟩ ∧ describe 0xFF#8 = ⟨3, true, true, none⟩ := by decide

/-- 30_encoding.md R54: 34 rows, no opcode byte twice, and the number of operand bytes of a row's format is its `AA`
(R53). -/
theorem test_table :
    opcodeTable.length = 34 ∧ (opcodeTable.map fun row => row.opcode).Nodup ∧
    opcodeTable.all fun row => (describe row.opcode).operandCount ==
      match row.format with
      | .z => 0
      | .r => 1
      | .rr => 2
      | .ri => 2 := by decide +kernel

/-- 30_encoding.md R57: there is no instruction in no bytes, in an unknown opcode or in an instruction cut short. -/
theorem test_decode_refuses :
    decode [] = .error .noBytes ∧ decode [0x02#8, 0x00#8] = .error (.unknownOpcode 0x02#8) ∧
    decode [0xC0#8, 0x00#8, 0x00#8] = .error (.unknownOpcode 0xC0#8) ∧
    decode [0x45#8] = .error (.truncated 0x45#8) ∧ decode [0xA0#8, 0x00#8] = .error (.truncated 0xA0#8) := by decide

/-- 95_test_vectors.md P2: `ADD R0,R1` is `A0 00 01`. -/
theorem test_encode : encode (.add 0x00#8 0x01#8) = [0xA0#8, 0x00#8, 0x01#8] ∧
    decodeTableWord 24 0x0100A0 = some (.add 0x00#8 0x01#8) ∧ decodeTableWord 8 0x11 = some .ret ∧
    decodeTableWord 8 0x02 = none := by decide

/-- 30_encoding.md R58, and the listing of 95_test_vectors.md P4 and P5. -/
theorem test_assembly :
    (Instr.ldi 0x02#8 0x09#8).assembly = "LDI R2,9" ∧ (Instr.cmp 0x00#8 0x01#8).assembly = "CMP R0,R1" ∧
    (Instr.pra 0x02#8).assembly = "PRA R2" ∧ Instr.hlt.assembly = "HLT" := by decide +kernel

/-! ### Well-formedness (30_encoding.md R56): an ill-formed term for each check -/

theorem test_wf_accepts : (Instr.add 0x07#8 0x00#8).wf = true ∧ Instr.ret.wf = true := by decide

theorem test_wf_first_register : (Instr.add 0x08#8 0x00#8).wf = false ∧ (Instr.inc 0x08#8).wf = false := by decide

theorem test_wf_second_register : (Instr.st 0x00#8 0xFF#8).wf = false := by decide

/-- The datum of the fault is the first bad byte (95_test_vectors.md section 2.1, `ADD R8,R9`). -/
theorem test_wf_first_bad : (Instr.add 0x08#8 0x09#8).badRegister = some 0x08#8 := by decide

/-- LDI's immediate and INT's operand are not checked (95_test_vectors.md sections 2.2 and 2.4). -/
theorem test_wf_unchecked : (Instr.ldi 0x01#8 0x09#8).wf = true ∧ (Instr.int 0x09#8).wf = true := by decide

/-! ### ALU (95_test_vectors.md section 2.1) -/

/-- `op 00 01` at 0x10 with x[0] = a, x[1] = b. -/
def alu (op a b : Byte) : Option (Byte × Byte × Nat) :=
  after (step (setReg 0 a (setReg 1 b (ready 0x10 [op, 0x00#8, 0x01#8])))) (seen 0)

theorem test_add :
    alu 0xA0#8 5 3 = some (8, 0, 0x13) ∧
    alu 0xA0#8 255 1 = some (0, 0, 0x13) := by decide

theorem test_sub :
    alu 0xA1#8 10 3 = some (7, 0, 0x13) ∧
    alu 0xA1#8 3 5 = some (254, 0, 0x13) := by decide

theorem test_mul :
    alu 0xA2#8 8 2 = some (16, 0, 0x13) ∧
    alu 0xA2#8 255 255 = some (1, 0, 0x13) := by decide

theorem test_div :
    alu 0xA3#8 17 5 = some (3, 0, 0x13) ∧
    alu 0xA3#8 5 7 = some (0, 0, 0x13) := by decide

theorem test_mod :
    alu 0xA4#8 17 5 = some (2, 0, 0x13) ∧
    alu 0xA4#8 255 16 = some (15, 0, 0x13) := by decide

theorem test_and :
    alu 0xA8#8 0xCC 0xAA = some (0x88, 0, 0x13) := by decide

theorem test_or :
    alu 0xAA#8 0xCC 0xAA = some (0xEE, 0, 0x13) := by decide

theorem test_xor :
    alu 0xAB#8 0xCC 0xAA = some (0x66, 0, 0x13) := by decide

theorem test_shl :
    alu 0xAC#8 0x81 1 = some (0x02, 0, 0x13) ∧
    alu 0xAC#8 0xFF 8 = some (0, 0, 0x13) := by decide

theorem test_shr :
    alu 0xAD#8 200 3 = some (25, 0, 0x13) ∧
    alu 0xAD#8 3 200 = some (0, 0, 0x13) := by decide

/-- Both operands one register: `ADD R0,R0` doubles. -/
theorem test_add_same_register :
    after (step (setReg 0 200 (ready 0x10 [0xA0#8, 0x00#8, 0x00#8]))) (seen 0) = some (144, 0, 0x13) := by decide

/-- The fault table. -/
theorem test_division_by_zero :
    after (step (setReg 0 7 (ready 0x10 [0xA3#8, 0x00#8, 0x01#8]))) fault =
      some (some (.divisionByZero 0xA3#8), 0x10, 0xA3#8) ∧
    after (step (ready 0x10 [0xA4#8, 0x00#8, 0x01#8])) fault =
      some (some (.divisionByZero 0xA4#8), 0x10, 0xA4#8) ∧
    after (step (ready 0x10 [0xA3#8, 0x09#8, 0x01#8])) fault =
      some (some (.invalidRegister 0x09#8), 0x10, 0xA3#8) := by decide

/-- `INC R2` and `DEC R2` wrap, `NOT R2`. -/
theorem test_inc_dec_not :
    after (step (setReg 2 255 (ready 0x10 [0x65#8, 0x02#8, 0xFF#8]))) (seen 2) = some (0, 0, 0x12) ∧
    after (step (setReg 2 0 (ready 0x10 [0x66#8, 0x02#8]))) (seen 2) = some (255, 0, 0x12) ∧
    after (step (setReg 2 0x0F (ready 0x10 [0x69#8, 0x02#8]))) (seen 2) = some (0xF0, 0, 0x12) := by decide

/-- The CMP table. -/
theorem test_cmp :
    alu 0xA7#8 5 8 = some (5, 4, 0x13) ∧ alu 0xA7#8 128 127 = some (128, 2, 0x13) ∧
    alu 0xA7#8 5 5 = some (5, 1, 0x13) := by decide

/-! ### Data movement and the stack (95_test_vectors.md section 2.2) -/

theorem test_ldi :
    after (step (ready 0x10 [0x82#8, 0x01#8, 0x09#8])) (seen 1) = some (9, 0, 0x13) ∧
    after (step (ready 0x10 [0x82#8, 0x08#8, 0x01#8])) fault =
      some (some (.invalidRegister 0x08#8), 0x10, 0x82#8) := by decide

theorem test_push :
    after (step (setReg 0 0xAA (setReg 7 0 (ready 0x10 [0x45#8, 0x00#8])))) (fun t => (t.sp, t.mem.get 0xFF, t.pc)) =
      some (0xFF, 0xAA, 0x12) ∧
    after (step (ready 0x10 [0x45#8, 0x07#8])) (fun t => (t.sp, t.mem.get 0xF3, t.pc)) =
      some (0xF3, 0xF3, 0x12) := by decide

theorem test_pop :
    after (step (setReg 7 0xFF (place 0xFF [9] (ready 0x10 [0x46#8, 0x00#8])))) (fun t => (t.sp, t.readReg 0, t.pc)) =
      some (0, 9, 0x12) ∧
    after (step (setReg 7 0xF3 (place 0xF3 [0x30] (ready 0x10 [0x46#8, 0x07#8])))) (fun t => (t.sp, t.pc)) =
      some (0x31, 0x12) := by decide

theorem test_ld :
    after (step (setReg 1 0x20 (place 0x20 [99] (ready 0x10 [0x83#8, 0x00#8, 0x01#8])))) (seen 0) =
      some (99, 0, 0x13) ∧
    after (step (ready 0x10 [0x83#8, 0x00#8, 0x08#8])) fault =
      some (some (.invalidRegister 0x08#8), 0x10, 0x83#8) := by decide

theorem test_st :
    after (step (setReg 0 0x20 (setReg 1 99 (ready 0x10 [0x84#8, 0x00#8, 0x01#8]))))
      (fun t => (t.mem.get 0x20, t.readReg 0, t.pc)) = some (99, 0x20, 0x13) := by decide

/-- R105, R106 with `LDST_IMPLEMENTED` false. -/
theorem test_ld_st_unsupported :
    after (loadIndirect false 0x00#8 0x01#8 State.reset) fault = some (some (.unsupportedOperation 0x83#8), 0, 0) ∧
    after (storeIndirect false 0x00#8 0x01#8 State.reset) fault = some (some (.unsupportedOperation 0x84#8), 0, 0) := by
  decide

/-! ### Control transfer (95_test_vectors.md section 2.3) -/

/-- PC after `op 02` at 6 with x[2] = 0x10, for FL = 0, 1, 2 and 4. -/
def jumps (op : Byte) : List (Option Nat) :=
  [0#8, 1#8, 2#8, 4#8].map fun fl =>
    after (step ((setReg 2 0x10 (ready 6 [op, 0x02#8])).writeFl fl)) (fun t => t.pc)

theorem test_jumps :
    jumps 0x54#8 = [some 0x10, some 0x10, some 0x10, some 0x10] ∧
    jumps 0x55#8 = [some 8, some 0x10, some 8, some 8] ∧
    jumps 0x56#8 = [some 0x10, some 8, some 0x10, some 0x10] ∧
    jumps 0x57#8 = [some 8, some 8, some 0x10, some 8] ∧
    jumps 0x58#8 = [some 8, some 8, some 8, some 0x10] ∧
    jumps 0x59#8 = [some 8, some 0x10, some 8, some 0x10] ∧
    jumps 0x5A#8 = [some 8, some 0x10, some 0x10, some 8] := by decide

theorem test_jump_checks_its_register :
    after (step (ready 0 [0x55#8, 0x08#8])) fault = some (some (.invalidRegister 0x08#8), 0, 0x55#8) := by decide

/-- Not taken at 254: PC is 256, not 0. -/
theorem test_jump_at_the_top :
    after (step ((ready 254 [0x56#8, 0x02#8]).writeFl 1)) (fun t => (t.pc, t.err)) = some (256, none) := by decide

theorem test_call :
    after (step (setReg 1 0x20 (ready 6 [0x50#8, 0x01#8]))) (fun t => (t.mem.get 0xF3, t.sp, t.pc)) =
      some (8, 0xF3, 0x20) ∧
    after (step (ready 0 [0x50#8, 0x07#8])) (fun t => (t.mem.get 0xF3, t.sp, t.pc)) = some (2, 0xF3, 0xF3) := by decide

theorem test_call_at_the_top :
    after (step (ready 254 [0x50#8, 0x01#8])) (fun t => (fault t, t.sp, t.mem.get 0xF3)) =
      some ((some (.invalidValue 256), 254, 0x50#8), 0xF4, 0) ∧
    after (step (ready 254 [0x50#8, 0x09#8])) fault = some (some (.invalidRegister 0x09#8), 254, 0x50#8) := by decide

theorem test_ret :
    after (step (setReg 7 0xF3 (place 0xF3 [8] (ready 0x22 [0x11#8])))) (fun t => (t.pc, t.sp)) =
      some (8, 0xF4) := by decide

/-! ### System (95_test_vectors.md section 2.4) -/

theorem test_nop : after (step (ready 0x10 [0x00#8])) (fun t => (t.pc, t.ir)) = some (0x11, 0x00#8) := by decide

theorem test_hlt :
    after (step (ready 0x10 [0x01#8])) (fun t => (t.run, t.err, t.pc, t.ir)) =
      some (.halted, none, 0x10, 0x01#8) := by decide

theorem test_prn_pra :
    after (step (setReg 0 255 (ready 0x10 [0x47#8, 0x00#8]))) (fun t => (t.out, t.pc)) = some ([.dec 255], 0x12) ∧
    after (step (setReg 1 72 (ready 0x10 [0x48#8, 0x01#8]))) (fun t => (t.out, t.pc)) = some ([.chr 72], 0x12) ∧
    after (step (ready 0x10 [0x47#8, 0x08#8])) (fun t => (fault t, t.out)) =
      some ((some (.invalidRegister 0x08#8), 0x10, 0x47#8), []) := by decide

theorem test_int_iret :
    after (step (ready 0x10 [0x52#8, 0x09#8])) fault = some (some (.unsupportedOperation 0x52#8), 0x10, 0x52#8) ∧
    after (step (ready 0x10 [0x13#8])) (fun t => (fault t, t.sp)) =
      some ((some (.unsupportedOperation 0x13#8), 0x10, 0x13#8), 0xF4) := by decide

/-! ### Fetch, faults and the host (95_test_vectors.md section 2.5) -/

/-- The last steps of F2, F8, F9 and F11: UnknownOpcode after two operand fetches, OutOfBounds before UnknownOpcode, the
fetch at 256, and the second operand at 256. -/
theorem test_fetch_faults :
    after (step (ready 3 [0xFF#8])) fault = some (some (.unknownOpcode 0xFF#8), 3, 0xFF#8) ∧
    after (step (ready 254 [0xFF#8])) fault = some (some (.outOfBounds 256), 254, 0xFF#8) ∧
    after (step ((ready 254 [0x47#8, 0x00#8]).writePc 256)) fault = some (some (.outOfBounds 256), 256, 0x00#8) ∧
    after (step (ready 254 [0x82#8, 0x00#8])) fault = some (some (.outOfBounds 256), 254, 0x82#8) := by decide

/-- The load vector: `load([01])` on a halted machine changes cell 0, PC, RUN and ERR. -/
theorem test_load :
    ∃ t, loadProgram [0x01#8] (setReg 0 7 (raise (.divisionByZero 0xA3#8) (ready 3 [0xA3#8, 0x00#8, 0x01#8]))) = .ok t ∧
      (t.mem.get 0, t.mem.get 3, t.readReg 0, t.pc, t.run, t.err) = (0x01#8, 0xA3#8, 7#8, 0, .running, none) :=
  ⟨_, rfl, rfl⟩

/-- T6: 256 bytes are loaded, 257 are not. -/
theorem test_program_too_large :
    (act (.load (List.replicate 257 0x00#8)) State.reset).2 = .programTooLarge 257 ∧
    (act (.load (List.replicate 256 0x00#8)) State.reset).2 = .done := by decide +kernel

/-- A step asked for in Halted is refused. -/
theorem test_step_in_halted : act .step State.reset.halt = (State.reset.halt, .refused) := by decide

theorem test_reset_memory_canonical : State.reset.mem.wf = true := by decide

/-- A cell that becomes zero is no longer listed; entries stay in order. -/
theorem test_memory_canonical :
    Memory.set (Memory.set [] 5 1) 3 2 = [(3, 2#8), (5, 1#8)] ∧
    Memory.set [(3, 2#8), (5, 1#8)] 5 0 = [(3, 2#8)] := by
  decide

/-! ### Witnesses: for each obligation with hypotheses, a state and operands that meet them, clause by clause -/

/-- A running state (the only hypothesis on the state of most clauses), operand bytes at the edge of the register range. -/
theorem witness_AddSubMulWrapModulo256 :
    State.reset.run = .running ∧ 8 ≤ (0x08#8).toNat ∧ (0x07#8).toNat < 8 ∧ 8 ≤ (0xFF#8).toNat := by decide

theorem witness_AndOrXorAreBitwise :
    State.reset.run = .running ∧ 8 ≤ (0x08#8).toNat ∧ (0x07#8).toNat < 8 ∧ 8 ≤ (0xFF#8).toNat := by decide

theorem witness_ShiftsUseTheWholeAmount :
    State.reset.run = .running ∧ 8 ≤ (0x08#8).toNat ∧ (0x07#8).toNat < 8 ∧ 8 ≤ (0xFF#8).toNat := by decide

theorem witness_IncDecNotActOnOneRegister : State.reset.run = .running ∧ 8 ≤ (0x08#8).toNat := by decide

theorem witness_DivModQuotientAndRemainder :
    (setReg 1 1 State.reset).run = .running ∧ (setReg 1 1 State.reset).readReg 1 ≠ 0#8 ∧
    (setReg 1 255 State.reset).readReg 1 ≠ 0#8 := by decide

theorem witness_DivModByZeroTakesDivisionByZero : State.reset.readReg 1 = 0#8 := by decide

theorem witness_DivModCheckRegistersFirst :
    8 ≤ (0x08#8).toNat ∧ (0x07#8).toNat < 8 ∧ 8 ≤ (0xFF#8).toNat := by decide

/-- One state for each of the three clauses, which exclude each other. -/
theorem witness_CmpReplacesTheThreeFlags :
    State.reset.run = .running ∧
    ((setReg 1 1 State.reset).readReg 0).toNat < ((setReg 1 1 State.reset).readReg 1).toNat ∧
    ((setReg 0 1 State.reset).readReg 0).toNat > ((setReg 0 1 State.reset).readReg 1).toNat ∧
    (State.reset.readReg 0).toNat = (State.reset.readReg 1).toNat ∧
    8 ≤ (0x08#8).toNat ∧ (0x07#8).toNat < 8 := by decide

theorem witness_LdiWritesTheImmediate : State.reset.run = .running ∧ 8 ≤ (0x08#8).toNat := by decide

theorem witness_PushStoresBelowTheStack :
    State.reset.run = .running ∧ (setReg 7 0 State.reset).run = .running ∧ 8 ≤ (0x08#8).toNat := by decide

/-- SP at its reset value and at 255; R0 and R7 as the operand. -/
theorem witness_PopLoadsFromTheStack :
    State.reset.run = .running ∧ ByteAt State.reset State.reset.sp.toNat 0#8 ∧
    ByteAt (setReg 7 255 State.reset) (setReg 7 255 State.reset).sp.toNat 0#8 ∧
    (0 : RegIndex) ≠ Config.spIndex ∧ (7 : RegIndex) = Config.spIndex ∧ 8 ≤ (0x08#8).toNat :=
  ⟨rfl, rfl, rfl, by decide, rfl, by decide⟩

theorem witness_PushThenPopRoundTrip :
    State.reset.run = .running ∧ (0 : RegIndex) ≠ Config.spIndex ∧ (6 : RegIndex) ≠ Config.spIndex := by decide

/-- The addresses 0 and 255. -/
theorem witness_LdLoadsThroughTheSecondRegister :
    State.reset.run = .running ∧ ByteAt State.reset (State.reset.readReg 1).toNat 0#8 ∧
    ByteAt (setReg 1 255 State.reset) ((setReg 1 255 State.reset).readReg 1).toNat 0#8 ∧
    8 ≤ (0x08#8).toNat ∧ (0x07#8).toNat < 8 :=
  ⟨rfl, rfl, rfl, by decide, by decide⟩

theorem witness_StStoresThroughTheFirstRegister :
    State.reset.run = .running ∧ 8 ≤ (0x08#8).toNat ∧ (0x07#8).toNat < 8 := by decide

theorem witness_JmpGoesToTheRegister : State.reset.run = .running ∧ 8 ≤ (0x08#8).toNat := by decide

/-- For each of the six conditions a value of FL that meets it and one that does not. -/
theorem witness_ConditionalJumpsFollowTheTruthTable :
    State.reset.run = .running ∧ 8 ≤ (0x08#8).toNat ∧
    1#8 &&& 1#8 ≠ 0#8 ∧ ¬ 0#8 &&& 1#8 ≠ 0#8 ∧ 0#8 &&& 1#8 = 0#8 ∧ ¬ 1#8 &&& 1#8 = 0#8 ∧
    2#8 &&& 2#8 ≠ 0#8 ∧ ¬ 0#8 &&& 2#8 ≠ 0#8 ∧ 4#8 &&& 4#8 ≠ 0#8 ∧ ¬ 0#8 &&& 4#8 ≠ 0#8 ∧
    4#8 &&& 5#8 ≠ 0#8 ∧ ¬ 2#8 &&& 5#8 ≠ 0#8 ∧ 2#8 &&& 3#8 ≠ 0#8 ∧ ¬ 4#8 &&& 3#8 ≠ 0#8 := by decide

/-- The CMP answers, with the first register below, equal to and above the second. -/
theorem witness_CompareThenJumpFollowsUnsignedOrder :
    State.reset.run = .running ∧
    (∃ u, exec (.cmp (regByte 0) (regByte 1)) (setReg 1 1 State.reset) = .next u) ∧
    (∃ u, exec (.cmp (regByte 0) (regByte 1)) State.reset = .next u) ∧
    (∃ u, exec (.cmp (regByte 0) (regByte 1)) (setReg 0 1 State.reset) = .next u) :=
  ⟨rfl, ⟨_, rfl⟩, ⟨_, rfl⟩, ⟨_, rfl⟩⟩

/-- PC at 253, the last address from which the return address fits in a byte, and at 0. -/
theorem witness_CallPushesTheReturnAddress :
    (State.reset.writePc 253).run = .running ∧ (State.reset.writePc 253).pc + 2 ≤ 255 ∧
    State.reset.pc + 2 ≤ 255 ∧ 8 ≤ (0x08#8).toNat := by decide

theorem witness_CallAtTheTopTakesInvalidValue :
    256 ≤ (ready 254 [0x50#8, 0x01#8]).pc + 2 ∧ (ready 254 [0x50#8, 0x01#8]).run = .running ∧
    (ready 254 [0x50#8, 0x01#8]).pc = 254 ∧ ByteAt (ready 254 [0x50#8, 0x01#8]) 254 0x50#8 ∧
    ByteAt (ready 254 [0x50#8, 0x01#8]) 255 (regByte 1) :=
  ⟨by decide, rfl, rfl, rfl, rfl⟩

/-- The state right after the CALL itself meets the hypotheses on `w`. -/
theorem witness_RetPopsIntoPcAndUndoesCall :
    State.reset.run = .running ∧ ByteAt State.reset State.reset.sp.toNat 0#8 ∧ State.reset.pc + 2 ≤ 255 ∧
    ∃ u w : State, exec (.call (regByte 1)) State.reset = .next u ∧ w.run = .running ∧ w.sp = u.sp ∧
      memRead w.mem u.sp.toNat = memRead u.mem u.sp.toNat :=
  ⟨rfl, rfl, by decide, _, _, rfl, rfl, rfl, rfl⟩

/-- PC at 0 and at 256, the two ends of the last clause's range. -/
theorem witness_NopAdvancesAndRunsOffTheEnd :
    State.reset.run = .running ∧ ByteAt State.reset State.reset.pc 0x00#8 ∧ State.reset.pc ≤ 256 ∧
    (∀ addr, State.reset.pc ≤ addr → addr ≤ 255 → ByteAt State.reset addr 0x00#8) ∧
    (State.reset.writePc 256).pc ≤ 256 ∧
    (∀ addr, (State.reset.writePc 256).pc ≤ addr → addr ≤ 255 → ByteAt (State.reset.writePc 256) addr 0x00#8) :=
  ⟨rfl, rfl, by decide, fun addr _ h => memRead_lt [] (by omega), by decide,
    fun _ h h' => absurd (Nat.le_trans h h') (by decide)⟩

theorem witness_HltHaltsInPlace : State.reset.run = .running := rfl

theorem witness_PrintsAppendOneEvent : State.reset.run = .running ∧ 8 ≤ (0x08#8).toNat := by decide

theorem witness_DecodeThenEncodeIsIdentity :
    decode [0xA0#8, 0x00#8, 0xFF#8, 0x11#8] = .ok (.add 0x00#8 0xFF#8, [0x11#8]) := by decide

/-- An unknown byte with operands that fit (up to address 255) and that do not, for the counts 0 and 2, and a listed
byte. -/
theorem witness_UnknownOpcodeBytesFault :
    (ready 255 [0x02#8]).run = .running ∧ (ready 255 [0x02#8]).err = none ∧
    ByteAt (ready 255 [0x02#8]) 255 0x02#8 ∧ UnknownByte 0x02#8 ∧ 255 + operandBytes 0x02#8 ≤ 255 ∧
    ByteAt (ready 253 [0xFF#8]) 253 0xFF#8 ∧ UnknownByte 0xFF#8 ∧ 253 + operandBytes 0xFF#8 ≤ 255 ∧
    ByteAt (ready 254 [0xFF#8]) 254 0xFF#8 ∧ 256 ≤ 254 + operandBytes 0xFF#8 ∧
    ByteAt (ready 255 [0x01#8]) 255 0x01#8 ∧ ¬ UnknownByte 0x01#8 :=
  ⟨rfl, rfl, rfl, .inl (by decide), by decide, rfl, by unfold UnknownByte; decide, by decide, rfl, by decide, rfl,
    by unfold UnknownByte; decide⟩

/-- A one-byte instruction in the last cell, and a three-byte one in the last three. -/
theorem witness_StepRunsTheDecodedInstruction :
    (ready 255 [0x01#8]).run = .running ∧
    decode (bytesFrom (ready 255 [0x01#8]).mem (ready 255 [0x01#8]).pc) = .ok (.hlt, []) ∧
    decode (bytesFrom (ready 253 [0x82#8, 0x03#8, 0x09#8]).mem (ready 253 [0x82#8, 0x03#8, 0x09#8]).pc) =
      .ok (.ldi 0x03#8 0x09#8, []) := by decide

theorem witness_FetchFaultsInStageOrder :
    (State.reset.writePc 256).run = .running ∧ 256 ≤ (State.reset.writePc 256).pc ∧
    ByteAt (ready 255 [0x45#8]) 255 0x45#8 ∧ 1 ≤ operandBytes 0x45#8 ∧
    ByteAt (ready 254 [0x82#8, 0x00#8]) 254 0x82#8 ∧ 2 ≤ operandBytes 0x82#8 ∧
    ByteAt (ready 253 [0x82#8, 0x00#8, 0x01#8]) 253 0x82#8 ∧ 253 + operandBytes 0x82#8 ≤ 255 ∧
    (ready 253 [0x82#8, 0x00#8, 0x01#8]).err = none ∧
    ∃ t, step (ready 253 [0x82#8, 0x00#8, 0x01#8]) = .next t :=
  ⟨rfl, by decide, rfl, by decide, rfl, by decide, rfl, by decide, rfl, _, rfl⟩

theorem witness_RunningAnswersAndHaltedRefuses :
    State.reset.run = .running ∧ State.reset.halt.run = .halted := by decide

/-- A fault of the execute stage, whose opcode byte was fetched, and one of the opcode fetch. -/
theorem witness_FaultingStepKeepsEverything :
    (∃ t, step (ready 0 [0x13#8]) = .next t ∧ t.err = some (.unsupportedOperation 0x13#8) ∧
      ByteAt (ready 0 [0x13#8]) (ready 0 [0x13#8]).pc 0x13#8) ∧
    (∃ t, step (State.reset.writePc 256) = .next t ∧ t.err = some (.outOfBounds 256) ∧
      256 ≤ (State.reset.writePc 256).pc) ∧
    State.reset.run = .running ∧ State.reset.err = none :=
  ⟨⟨_, rfl, rfl, rfl⟩, ⟨_, rfl, rfl, by decide⟩, rfl, rfl⟩

/-- A NOP, a RET, a jump, HLT, and a load. -/
theorem witness_PcAdvancesUnlessTheOpcodeSetsIt :
    (∃ t, ByteAt State.reset State.reset.pc 0x00#8 ∧ step State.reset = .next t ∧ t.run = .running ∧
      (0x00#8).getLsbD 4 = false) ∧
    (∃ t, ByteAt (ready 0 [0x11#8]) 0 0x11#8 ∧ step (ready 0 [0x11#8]) = .next t ∧ t.run = .running ∧
      (0x11#8).getLsbD 4 = true) ∧
    (∃ t, ByteAt (ready 254 [0x55#8, 0x02#8]) 254 0x55#8 ∧ step (ready 254 [0x55#8, 0x02#8]) = .next t ∧
      t.run = .running ∧ (0x55#8).getLsbD 4 = true) ∧
    (∃ t, step (ready 0 [0x01#8]) = .next t ∧ t.run = .halted) ∧
    (∃ t, loadProgram [0x01#8] State.reset = .ok t) :=
  ⟨⟨_, rfl, rfl, rfl, rfl⟩, ⟨_, rfl, rfl, rfl, rfl⟩, ⟨_, rfl, rfl, rfl, rfl⟩, ⟨_, rfl, rfl⟩, ⟨_, rfl⟩⟩

theorem witness_CompletedStepLeavesPcAtMost256 :
    State.reset.run = .running ∧ State.reset.err = none ∧ ∃ t, step State.reset = .next t ∧ t.err = none :=
  ⟨rfl, rfl, _, rfl, rfl⟩

/-- A state with memory in use that takes a fault, one that completes an instruction at the last address, FL not zero. -/
theorem witness_StepKeepsTheInvariant :
    Inv (ready 0 [0x13#8]) ∧ (∃ t, step (ready 0 [0x13#8]) = .next t) ∧
    Inv ((ready 255 [0x01#8]).writeFl 4#8) ∧ (∃ t, step ((ready 255 [0x01#8]).writeFl 4#8) = .next t) :=
  ⟨⟨rfl, .inl rfl, by decide, fun _ => rfl, fun _ h => by cases h⟩, ⟨_, rfl⟩,
    ⟨rfl, .inr (.inr (.inr rfl)), by decide, fun _ => rfl, fun _ h => by cases h⟩, ⟨_, rfl⟩⟩

/-- A halted state with a fault record. -/
theorem witness_HostActionsKeepTheInvariant : Inv (raise (.invalidValue 256) (ready 254 [0x50#8, 0x01#8])) :=
  ⟨rfl, .inl rfl, by decide, fun h => absurd h (by decide), fun _ h => Option.some.inj h ▸ rfl⟩

theorem witness_OnlyCmpChangesFlags :
    (ready 0 [0xA7#8, 0x00#8, 0x01#8]).run = .running ∧
    ∃ t, step (ready 0 [0xA7#8, 0x00#8, 0x01#8]) = .next t ∧ t.fl ≠ (ready 0 [0xA7#8, 0x00#8, 0x01#8]).fl :=
  ⟨rfl, _, rfl, by decide⟩

/-- PUSH, CALL and ST each change a byte. -/
theorem witness_OnlyStoresChangeMemory :
    (∃ t, step (ready 0 [0x45#8, 0x07#8]) = .next t ∧
      memRead t.mem 0xF3 ≠ memRead (ready 0 [0x45#8, 0x07#8]).mem 0xF3) ∧
    (∃ t, step (ready 0 [0x50#8, 0x01#8]) = .next t ∧
      memRead t.mem 0xF3 ≠ memRead (ready 0 [0x50#8, 0x01#8]).mem 0xF3) ∧
    (∃ t, step (ready 0 [0x84#8, 0x07#8, 0x07#8]) = .next t ∧
      memRead t.mem 0xF4 ≠ memRead (ready 0 [0x84#8, 0x07#8, 0x07#8]).mem 0xF4) ∧
    (ready 0 [0x45#8, 0x07#8]).run = .running :=
  ⟨⟨_, rfl, by decide⟩, ⟨_, rfl, by decide⟩, ⟨_, rfl, by decide⟩, rfl⟩

theorem witness_OnlyPrintsChangeOutput :
    (ready 0 [0x48#8, 0x07#8]).run = .running ∧
    ∃ t, step (ready 0 [0x48#8, 0x07#8]) = .next t ∧ t.out = State.reset.out ++ [.chr 0xF4] :=
  ⟨rfl, _, rfl, rfl⟩

/-- A register named by the operand, and R7 under RET. -/
theorem witness_RegistersChangeOnlyWhenNamed :
    (∃ t, step (ready 0 [0x65#8, 0x02#8]) = .next t ∧ t.readReg 2 ≠ (ready 0 [0x65#8, 0x02#8]).readReg 2) ∧
    (∃ t, step (ready 0 [0x11#8]) = .next t ∧ t.readReg 7 ≠ (ready 0 [0x11#8]).readReg 7) ∧
    (ready 0 [0x11#8]).run = .running :=
  ⟨⟨_, rfl, by decide⟩, ⟨_, rfl, by decide⟩, rfl⟩

theorem witness_UnnamedRegistersAreInert :
    (5 : RegIndex) ≠ Config.spIndex ∧ (∀ a ∈ (Instr.add 0x04#8 0x06#8).regOperands, a.toNat ≠ (5 : RegIndex).val) ∧
    ∃ t, exec (.add 0x04#8 0x06#8) State.reset = .next t :=
  ⟨by decide, by decide, _, rfl⟩

/-- CMP, and an instruction that does not touch FL. -/
theorem witness_FlagsReadOnlyByConditionalJumps :
    (Instr.cmp 0x00#8 0x01#8).op ∉ [Op.jeq, .jne, .jgt, .jlt, .jle, .jge] ∧
    (∃ t, exec (.cmp 0x00#8 0x01#8) State.reset = .next t) ∧
    (Instr.jmp 0x00#8).op ∉ [Op.jeq, .jne, .jgt, .jlt, .jle, .jge] ∧
    ∃ t, exec (.jmp 0x00#8) State.reset = .next t :=
  ⟨by decide, ⟨_, rfl⟩, by decide, _, rfl⟩

theorem witness_OutputAndTraceRegisterAreNotRead : ∃ t, step (ready 0 [0x47#8, 0x07#8]) = .next t := ⟨_, rfl⟩

/-- A step that halts by HLT, and one that halts by a fault. -/
theorem witness_HaltsOnlyByHltOrFault :
    (ready 255 [0x01#8]).run = .running ∧ (ready 255 [0x01#8]).err = none ∧
    ByteAt (ready 255 [0x01#8]) (ready 255 [0x01#8]).pc 0x01#8 ∧
    (∃ t, step (ready 255 [0x01#8]) = .next t ∧ t.run = .halted) ∧
    ∃ t, step (ready 255 [0x13#8]) = .next t ∧ t.err ≠ none :=
  ⟨rfl, rfl, rfl, ⟨_, rfl, rfl⟩, _, rfl, by decide⟩

theorem witness_InvalidRegisterExactlyWhenIllFormed :
    (Instr.st 0x07#8 0x08#8).badRegister = some 0x08#8 ∧ (Instr.st 0x07#8 0x07#8).wf = true ∧
    State.reset.err = none ∧ ∃ t, exec (.st 0x07#8 0x07#8) State.reset = .next t :=
  ⟨by decide, by decide, rfl, _, rfl⟩

theorem witness_RegisterWritesAreMasked : 8 ≤ (0x08#8).toNat := by decide

theorem witness_MemReadIsBoundsChecked : (255 : Nat) ≤ 255 ∧ (256 : Nat) ≤ 256 := by decide

/-- The last address and the first outside, the last value and the first too large; the three clauses exclude each
other. -/
theorem witness_MemWriteChangesExactlyOneCell :
    Memory.wf [(255, 1#8)] = true ∧ (255 : Nat) ≤ 255 ∧ (256 : Nat) ≤ 256 := by decide

theorem witness_CanonicalMemoriesAreEqualWhenTheyReadAlike :
    Memory.wf [(0, 1#8), (255, 2#8)] = true ∧
    ∀ addr, addr ≤ 255 → memRead [(0, 1#8), (255, 2#8)] addr = memRead [(0, 1#8), (255, 2#8)] addr :=
  ⟨by decide, fun _ _ => rfl⟩

/-- At 0, and at 252, the highest address from which the next instruction still begins in memory. -/
theorem witness_StoredByteIsFetchedByTheNextStep :
    let s := setReg 0 3 (ready 0 [0x84#8, 0x00#8, 0x01#8])
    let u := setReg 0 255 (ready 252 [0x84#8, 0x00#8, 0x01#8])
    s.run = .running ∧ s.pc + 3 ≤ 255 ∧ ByteAt s s.pc 0x84#8 ∧ ByteAt s (s.pc + 1) (regByte 0) ∧
      ByteAt s (s.pc + 2) (regByte 1) ∧ (s.readReg 0).toNat = s.pc + 3 ∧
    u.run = .running ∧ u.pc + 3 ≤ 255 ∧ ByteAt u u.pc 0x84#8 ∧ ByteAt u (u.pc + 1) (regByte 0) ∧
      ByteAt u (u.pc + 2) (regByte 1) ∧ (u.readReg 0).toNat = u.pc + 3 :=
  ⟨rfl, by decide, rfl, rfl, rfl, rfl, rfl, by decide, rfl, rfl, rfl, rfl⟩

theorem witness_ResetRegisters : (6 : RegIndex) ≠ 7 := by decide

theorem witness_ResetOfEverythingElse : (255 : Nat) ≤ 255 := by decide

/-- Images of 256 and of 257 bytes, and of one byte. -/
theorem witness_LoadCopiesTheImage :
    (List.replicate 256 0x11#8).length ≤ 256 ∧ (List.replicate 256 0x11#8)[255]? = some 0x11#8 ∧
    257 ≤ (List.replicate 257 0x11#8).length ∧ [0x11#8].length ≤ 256 := by decide +kernel

theorem witness_LoadedImageRunsFromAddressZero :
    (encode (.ldi 0x03#8 0x09#8) ++ [0x01#8]).length ≤ 256 ∧
    ∃ t, loadProgram (encode (.ldi 0x03#8 0x09#8) ++ [0x01#8]) State.reset = .ok t :=
  ⟨by decide, _, rfl⟩

theorem witness_RunsCanBeTakenUpAgain : State.reset.halt.run = .halted := rfl

theorem witness_OnlyResetOrLoadLeavesHalted :
    State.reset.halt.run = .halted ∧ (act .reset State.reset.halt).1.run = .running ∧
    (act (.load [0x01#8]) State.reset.halt).1.run = .running := by decide

/-- PC at 0 and at 253. -/
theorem witness_PlacedWordIsExecuted :
    State.reset.pc ≤ 253 ∧ (State.reset.writePc 253).pc ≤ 253 ∧
    decodeTableWord 24 0x0100A0 = some (.add 0x00#8 0x01#8) := by decide

end Sys2Proof.Tests
end

section
/-! PROOFS. The registers and PC (spec/10_state.md R11, R13, R15): what a step that completes an instruction did, and from
it how PC changes. -/

namespace Sys2Proof.Machine

/-! ### A step either faults or completes the instruction at PC -/

/-- The operand bytes an operation takes of the two the engine holds are as many as it fetches (30_encoding.md R50, R53). -/
theorem build_operands (o : Op) (a b : Byte) : (build o a b).operands = [a, b].take (fetchCount o.opcode) := by
  cases o <;> rfl

theorem ByteAt.unique {s : State} {addr : Nat} {v w : Byte} (hv : ByteAt s addr v) (hw : ByteAt s addr w) : v = w :=
  Except.ok.inj (hv.symm.trans hw)

/-- Every operand byte of the instruction that is built lies in memory after the opcode (30_encoding.md R50). -/
theorem byteAt_operand_of_fetchOperands {s : State} {o : Op} {a b : Byte}
    (h : fetchOperands o.opcode s = .ok (a, b)) {k : Nat} {v : Byte} (hv : (build o a b).operands[k]? = some v) :
    ByteAt s (s.pc + 1 + k) v := by
  obtain ⟨h1, h2⟩ := fetchOperands_eq_ok h
  obtain ⟨hk, hv⟩ : k < fetchCount o.opcode ∧ [a, b][k]? = some v := by
    simpa only [build_operands, List.getElem?_take, Option.ite_none_right_eq_some] using hv
  match k, hv with
  | 0, hv => cases hv; exact h1 hk
  | 1, hv => cases hv; exact h2 hk

/-- `t` is what a step from `s` leaves that executed the instruction `i`, whose bytes lie at PC, without a fault. -/
structure Completes (s : State) (i : Instr) (t : State) : Prop where
  opcode : ByteAt s s.pc i.op.opcode
  operands : ∀ {k : Nat} {v : Byte}, i.operands[k]? = some v → ByteAt s (s.pc + 1 + k) v
  effect : ∃ u, Effect (s.writeIr i.op.opcode) i u ∧ t = advancePc (describe i.op.opcode) u

/-- A step that answers a next state either entered a fault, from the state it started in up to IR, or completed an
instruction. -/
theorem raise_or_completes_of_step {s t : State} (h : step s = .next t) :
    (∃ f ir, t = raise f (s.writeIr ir)) ∨ ∃ i, Completes s i t := by
  obtain ⟨-, ⟨-, ht⟩ | ⟨op, hop, ⟨f, -, ht⟩ | ⟨-, ht⟩ | ⟨o, a, b, hl, hf, he⟩⟩⟩ := step_cases h
  · exact .inl ⟨_, s.ir, ht⟩
  · exact .inl ⟨f, op, ht⟩
  · exact .inl ⟨_, op, ht⟩
  · obtain rfl := opcode_of_lookup op o hl
    obtain ⟨f, -, ht⟩ | ⟨u, hu, ht⟩ := exec_cases he
    · exact .inl ⟨f, _, ht⟩
    · refine .inr ⟨build o a b, ?_, byteAt_operand_of_fetchOperands hf, u, ?_, ht⟩
      · rwa [build_op]
      · rwa [build_op]

/-- A step that leaves the engine Running completed the instruction of the opcode byte at PC. -/
theorem completes_of_step_running {s t : State} {op : Byte} (hop : ByteAt s s.pc op) (h : step s = .next t)
    (ht : t.run = .running) : ∃ i, i.op.opcode = op ∧ Completes s i t := by
  obtain ⟨f, ir, rfl⟩ | ⟨i, hi⟩ := raise_or_completes_of_step h
  · cases ht
  · exact ⟨i, hi.opcode.unique hop, hi⟩

/-! ### PC after a step (R15) -/

/-- An instruction whose opcode has bit 4 = 1 is RET, or goes to its operand register, or on to PC + 2 (R110, R118, R119,
R121). -/
theorem Effect.pc_of_setsPc {s u : State} {i : Instr} (h : Effect s i u)
    (hs : (describe i.op.opcode).setsPc = true) :
    (i = .ret ∧ u.pc = (s.mem.get s.sp.toNat).toNat) ∨
    ∃ ra, i.operands[0]? = some (regByte ra) ∧ (u.pc = (u.readReg ra).toNat ∨ u.pc = s.pc + 2) := by
  cases h with
  | ret => exact .inl ⟨rfl, rfl⟩
  | jump _ ra _ _ ha ht => exact .inr ⟨ra, by rw [ha]; rfl, ht⟩
  | call ra => exact .inr ⟨ra, rfl, .inl rfl⟩
  | reg _ _ _ hs' => rw [hs'] at hs; cases hs
  | _ => exact absurd hs (by simp only [Instr.op]; decide)

/-- Bit 4 = 0, still Running: PC moves past the opcode byte and the operand bytes its two top bits count. -/
theorem Completes.pc_of_not_setsPc {s t : State} {i : Instr} (h : Completes s i t) (ht : t.run = .running)
    (hs : i.op.opcode.getLsbD 4 = false) : t.pc = s.pc + 1 + i.op.opcode.toNat / 64 := by
  obtain ⟨u, hu, rfl⟩ := h.effect
  rw [advancePc_run] at ht
  rw [advancePc_running ht hs, State.writePc_pc, hu.pc hs, describe_operandCount, State.writeIr_pc]

/-- Bit 4 = 1: the instruction itself sets PC. -/
theorem Completes.pc_of_setsPc {s t : State} {i : Instr} (h : Completes s i t) (hs : i.op.opcode.getLsbD 4 = true) :
    (i = .ret ∧ t.pc = (s.mem.get s.sp.toNat).toNat) ∨
    ∃ ra, ByteAt s (s.pc + 1) (regByte ra) ∧ (t.pc = (t.readReg ra).toNat ∨ t.pc = s.pc + 2) := by
  obtain ⟨u, hu, rfl⟩ := h.effect
  rw [advancePc_setsPc hs]
  exact (hu.pc_of_setsPc hs).imp id fun ⟨ra, ha, hpc⟩ => ⟨ra, h.operands ha, hpc⟩

/-- A completed instruction that halts the engine is HLT, and leaves PC. -/
theorem Completes.pc_of_halted {s t : State} {i : Instr} (h : Completes s i t) (hr : s.run = .running)
    (ht : t.run = .halted) : t.pc = s.pc := by
  obtain ⟨u, hu, rfl⟩ := h.effect
  rw [advancePc_run] at ht
  rw [advancePc_halted ht]
  obtain ⟨-, hu'⟩ | ⟨rfl, -⟩ := hu.run
  · rw [ht, State.writeIr_run, hr] at hu'
    cases hu'
  · exact hu.pc (by decide)

/-- A step that halts the engine, by HLT or by a fault, leaves PC. -/
theorem pc_of_step_halted {s t : State} (hr : s.run = .running) (h : step s = .next t) (ht : t.run = .halted) :
    t.pc = s.pc := by
  obtain ⟨f, ir, rfl⟩ | ⟨i, hi⟩ := raise_or_completes_of_step h
  · rfl
  · exact hi.pc_of_halted hr ht

theorem pc_of_loadProgram {program : List Byte} {s t : State} (h : loadProgram program s = .ok t) : t.pc = 0 := by
  unfold loadProgram at h
  split at h <;> cases h
  rfl

/-- Settles O34: by bit 4 of the opcode of the instruction that the step completed, and for a step that halts by what
ended it. -/
theorem pcAdvancesUnlessTheOpcodeSetsIt : Obligations.PcAdvancesUnlessTheOpcodeSetsIt := by
  refine ⟨fun s t op _ hop h ht hs => ?_, fun s t op _ hop h ht hs => ?_, fun s t => pc_of_step_halted, rfl,
    fun _ _ _ => pc_of_loadProgram⟩
  · obtain ⟨i, rfl, hi⟩ := completes_of_step_running hop h ht
    exact hi.pc_of_not_setsPc ht hs
  · obtain ⟨i, rfl, hi⟩ := completes_of_step_running hop h ht
    obtain ⟨rfl, hpc⟩ | hjump := hi.pc_of_setsPc hs
    · have hread : ByteAt s s.sp.toNat (s.mem.get s.sp.toNat) := memRead_byte s.mem s.sp
      refine .inl ⟨rfl, ?_, ?_⟩
      · rwa [hpc, BitVec.ofNat_toNat, BitVec.setWidth_eq]
      · have := (s.mem.get s.sp.toNat).isLt
        omega
    · exact .inr hjump

/-! ### The registers (R11, R13) -/

/-- Settles O48: a write stores `mask8`, and an operand byte is a register exactly when it is below 8. -/
theorem registerWritesAreMasked : Obligations.RegisterWritesAreMasked := by
  refine ⟨fun s r v => ⟨?_, fun q hq => ?_⟩, fun a => reg_bad, reg_regByte⟩
  · rw [State.readReg_writeReg_self, mask8_toNat]
  · exact s.readReg_writeReg_ne v (List.ne_of_not_mem_cons hq)

/-- Settles O53, by reading the eight reset values. -/
theorem resetRegisters : Obligations.ResetRegisters := by
  refine ⟨rfl, ?_⟩
  decide

end Sys2Proof.Machine
end

section
/-! PROOFS. The memory (spec/20_memory.md R31). -/

namespace Sys2Proof.Machine

/-- Settles O49: the address is compared with 256 as it stands, and each side of 256 has its own lemma. -/
theorem memReadIsBoundsChecked : Obligations.MemReadIsBoundsChecked :=
  ⟨fun m _ h => memRead_lt m (Nat.lt_succ_of_le h), fun m _ h => memRead_ge m h⟩

end Sys2Proof.Machine
end

section
/-! PROOFS. The ALU (spec/41_alu.md): what taking a fault and writing one register leave unchanged, the operand check of
each operand form, the arithmetic of each operation, and the instructions assembled from them. -/

namespace Sys2Proof.Machine

/-! ### The operand check (30_encoding.md R56) -/

theorem faulted_raise (f : Fault) (s : State) : Faulted f s (raise f s) :=
  ⟨rfl, rfl, rfl, rfl, rfl, rfl, rfl, rfl⟩

theorem takes_of_exec_eq_raise {i : Instr} {f : Fault} {s : State} (h : exec i s = .next (raise f s)) : Takes i f s :=
  ⟨_, h, faulted_raise f s⟩

/-- Whatever its body, an instruction of the one-register form checks its operand. -/
theorem checksOne_of_exec_eq_withReg {mk : Byte → Instr} {o : Op} {body : State → RegIndex → Except Fault State}
    (h : ∀ a s, exec (mk a) s = withReg o a s (body s)) : ChecksOne mk :=
  fun s a ha => takes_of_exec_eq_raise ((h a s).trans (withReg_bad o ha s _))

/-- Whatever its body, an instruction of the two-register form checks `a`, then `b`. -/
theorem checksTwo_of_exec_eq_withRegs {mk : Byte → Byte → Instr} {o : Op}
    {body : State → RegIndex → RegIndex → Except Fault State}
    (h : ∀ a b s, exec (mk a b) s = withRegs o a b s (body s)) : ChecksTwo mk := by
  refine fun s a b => ⟨fun ha => ?_, fun ha hb => ?_⟩
  · exact takes_of_exec_eq_raise ((h a b s).trans (withRegs_bad_first o b ha s _))
  · obtain ⟨ra, rfl⟩ := reg_of_lt ha
    exact takes_of_exec_eq_raise ((h _ b s).trans (withRegs_bad_second o ra hb s _))

/-! ### The frame of an instruction that writes one register -/

theorem memKept_of_eq {s t : State} (except : List Nat) (h : t.mem = s.mem) : MemKept except s t :=
  fun _ _ => by rw [h]

theorem writesOnlyRegs_advancePc_writeReg (d : Descriptor) (s : State) (ra : RegIndex) (v : Int) :
    WritesOnlyRegs [ra] s (advancePc d (s.writeReg ra v)) := by
  refine ⟨fun r hr => ?_, advancePc_fl d _, memKept_of_eq [] (advancePc_mem d _),
    advancePc_ir d _, advancePc_run d _, advancePc_err d _, advancePc_out d _⟩
  rw [readReg_advancePc, s.readReg_writeReg_ne v (List.ne_of_not_mem_cons hr)]

/-- What an instruction does whose one effect is the byte `v` in `x[ra]`. -/
theorem exists_of_exec_eq_writeReg {i : Instr} {o : Op} {s : State} {ra : RegIndex} {v : Byte}
    (hr : s.run = .running) (hd : (describe o.opcode).setsPc = false)
    (h : exec i s = complete o s (.ok (s.writeReg ra v.toNat))) :
    ∃ t, exec i s = .next t ∧ t.readReg ra = v ∧ t.pc = s.pc + 1 + (describe o.opcode).operandCount ∧
      WritesOnlyRegs [ra] s t := by
  refine ⟨_, h, ?_, ?_, writesOnlyRegs_advancePc_writeReg _ s ra v.toNat⟩
  · rw [readReg_advancePc, State.readReg_writeReg_self, mask8_natCast_toNat]
  · rw [advancePc_running (s := s.writeReg ra v.toNat) hr hd]
    rfl

/-- A one-register instruction that writes `g x[ra]`, where `g` is `f` on the numbers. -/
theorem resultOne_of_exec {mk : Byte → Instr} {o : Op} {g : Byte → Byte} {f : Nat → Nat}
    (hd : (describe o.opcode).setsPc = false ∧ (describe o.opcode).operandCount = 1)
    (h : ∀ s ra, exec (mk (regByte ra)) s = complete o s (.ok (s.writeReg ra (g (s.readReg ra)).toNat)))
    (hg : ∀ va, (g va).toNat = f va.toNat) : ResultOne mk f := by
  intro s ra hr
  obtain ⟨hpc, hcount⟩ := hd
  obtain ⟨t, ht, hv, hp, hw⟩ := exists_of_exec_eq_writeReg hr hpc (h s ra)
  exact ⟨t, ht, by rw [hv, hg], by rw [hp, hcount], hw⟩

/-- A two-register instruction that writes `g x[ra] x[rb]`, where `g` is `f` on the numbers. -/
theorem resultTwo_of_exec {mk : Byte → Byte → Instr} {o : Op} {g : Byte → Byte → Byte} {f : Nat → Nat → Nat}
    (hd : (describe o.opcode).setsPc = false ∧ (describe o.opcode).operandCount = 2)
    (h : ∀ s ra rb, exec (mk (regByte ra) (regByte rb)) s =
      complete o s (.ok (s.writeReg ra (g (s.readReg ra) (s.readReg rb)).toNat)))
    (hg : ∀ va vb, (g va vb).toNat = f va.toNat vb.toNat) : ResultTwo mk f := by
  intro s ra rb hr
  obtain ⟨hpc, hcount⟩ := hd
  obtain ⟨t, ht, hv, hp, hw⟩ := exists_of_exec_eq_writeReg hr hpc (h s ra rb)
  exact ⟨t, ht, by rw [hv, hg], by rw [hp, hcount], hw⟩

/-! ### The arithmetic of each operation (41_alu.md R80 to R93) -/

theorem aluAdd_toNat (va vb : Byte) : (aluAdd va vb).toNat = (va.toNat + vb.toNat) % 256 :=
  mask8_natCast_toNat_eq (va.toNat + vb.toNat)

/-- The difference wraps (R95). -/
theorem aluSub_toNat (va vb : Byte) : (aluSub va vb).toNat = (va.toNat + 256 - vb.toNat) % 256 := by
  have h : ((aluSub va vb).toNat : Int) = ((va.toNat : Int) - vb.toNat) % 256 := mask8_toNat _
  have := vb.isLt
  omega

theorem aluMul_toNat (va vb : Byte) : (aluMul va vb).toNat = va.toNat * vb.toNat % 256 :=
  mask8_natCast_toNat_eq (va.toNat * vb.toNat)

theorem aluInc_toNat (va : Byte) : (aluInc va).toNat = (va.toNat + 1) % 256 :=
  mask8_natCast_toNat_eq (va.toNat + 1)

theorem aluDec_toNat (va : Byte) : (aluDec va).toNat = (va.toNat + 255) % 256 := by
  have h : ((aluDec va).toNat : Int) = ((va.toNat : Int) - 1) % 256 := mask8_toNat _
  omega

/-- `-n - 1` modulo 256 is `255 - n` for a byte `n`. -/
theorem aluNot_toNat (va : Byte) : (aluNot va).toNat = 255 - va.toNat := by
  have h : ((aluNot va).toNat : Int) = (-(va.toNat : Int) - 1) % 256 := mask8_toNat _
  have := va.isLt
  omega

theorem aluAnd_toNat (va vb : Byte) : (aluAnd va vb).toNat = va.toNat &&& vb.toNat := by
  rw [aluAnd, ← BitVec.toNat_and, mask8_natCast_toNat]

theorem aluOr_toNat (va vb : Byte) : (aluOr va vb).toNat = va.toNat ||| vb.toNat := by
  rw [aluOr, ← BitVec.toNat_or, mask8_natCast_toNat]

theorem aluXor_toNat (va vb : Byte) : (aluXor va vb).toNat = va.toNat ^^^ vb.toNat := by
  rw [aluXor, ← BitVec.toNat_xor, mask8_natCast_toNat]

theorem aluShl_toNat (va vb : Byte) : (aluShl va vb).toNat = va.toNat * 2 ^ vb.toNat % 256 := by
  rw [aluShl, mask8_natCast_toNat_eq, Nat.shiftLeft_eq]

/-- A right shift of a byte is a byte, so masking it does nothing. -/
theorem aluShr_toNat (va vb : Byte) : (aluShr va vb).toNat = va.toNat / 2 ^ vb.toNat := by
  rw [aluShr, ← BitVec.toNat_ushiftRight, mask8_natCast_toNat, BitVec.toNat_ushiftRight, Nat.shiftRight_eq_div_pow]

theorem compareFlags_of_lt {va vb : Byte} (h : va.toNat < vb.toNat) : compareFlags va vb = 0b100#8 := by
  rw [compareFlags, decide_eq_true h, decide_eq_false h.not_gt, decide_eq_false h.ne]
  rfl

theorem compareFlags_of_gt {va vb : Byte} (h : va.toNat > vb.toNat) : compareFlags va vb = 0b010#8 := by
  rw [compareFlags, decide_eq_false h.not_gt, decide_eq_true h, decide_eq_false h.ne']
  rfl

theorem compareFlags_of_eq {va vb : Byte} (h : va.toNat = vb.toNat) : compareFlags va vb = 0b001#8 := by
  rw [compareFlags, decide_eq_false h.not_lt, decide_eq_false h.not_gt, decide_eq_true h]
  rfl

/-! ### The instructions -/

/-- Settles O1: the masked exact results are the sums, differences and products modulo 256. -/
theorem addSubMulWrapModulo256 : Obligations.AddSubMulWrapModulo256 :=
  ⟨fun _ _ => ⟨rfl, rfl, rfl⟩,
    resultTwo_of_exec (by decide) exec_add aluAdd_toNat,
    resultTwo_of_exec (by decide) exec_sub aluSub_toNat,
    resultTwo_of_exec (by decide) exec_mul aluMul_toNat,
    checksTwo_of_exec_eq_withRegs fun _ _ _ => rfl, checksTwo_of_exec_eq_withRegs fun _ _ _ => rfl,
    checksTwo_of_exec_eq_withRegs fun _ _ _ => rfl⟩

/-- Settles O2: the bitwise combination of two bytes is a byte, which masking keeps. -/
theorem andOrXorAreBitwise : Obligations.AndOrXorAreBitwise :=
  ⟨fun _ _ => ⟨rfl, rfl, rfl⟩,
    resultTwo_of_exec (by decide) exec_and aluAnd_toNat,
    resultTwo_of_exec (by decide) exec_or aluOr_toNat,
    resultTwo_of_exec (by decide) exec_xor aluXor_toNat,
    checksTwo_of_exec_eq_withRegs fun _ _ _ => rfl, checksTwo_of_exec_eq_withRegs fun _ _ _ => rfl,
    checksTwo_of_exec_eq_withRegs fun _ _ _ => rfl⟩

/-- Settles O3: the shifts are a product and a quotient by `2 ^ vb`, for every byte `vb`. -/
theorem shiftsUseTheWholeAmount : Obligations.ShiftsUseTheWholeAmount :=
  ⟨fun _ _ => ⟨rfl, rfl⟩,
    resultTwo_of_exec (by decide) exec_shl aluShl_toNat,
    resultTwo_of_exec (by decide) exec_shr aluShr_toNat,
    checksTwo_of_exec_eq_withRegs fun _ _ _ => rfl, checksTwo_of_exec_eq_withRegs fun _ _ _ => rfl⟩

/-- Settles O4: the three operations of one operand, each by its arithmetic on the number of the byte. -/
theorem incDecNotActOnOneRegister : Obligations.IncDecNotActOnOneRegister :=
  ⟨fun _ => ⟨rfl, rfl, rfl⟩,
    resultOne_of_exec (by decide) exec_inc aluInc_toNat,
    resultOne_of_exec (by decide) exec_dec aluDec_toNat,
    resultOne_of_exec (by decide) exec_not aluNot_toNat,
    checksOne_of_exec_eq_withReg fun _ _ => rfl, checksOne_of_exec_eq_withReg fun _ _ => rfl,
    checksOne_of_exec_eq_withReg fun _ _ => rfl⟩

/-- Settles O8: FL becomes `compareFlags` of the two registers, which has one value for each order of the two bytes. -/
theorem cmpReplacesTheThreeFlags : Obligations.CmpReplacesTheThreeFlags := by
  refine ⟨fun _ _ => rfl, fun s ra rb hr => ?_, checksTwo_of_exec_eq_withRegs fun _ _ _ => rfl⟩
  have hpc : (describe Op.cmp.opcode).setsPc = false := by decide
  refine ⟨_, exec_cmp s ra rb, ?_⟩
  rw [advancePc_running (s := s.writeFl (compareFlags (s.readReg ra) (s.readReg rb))) hr hpc]
  exact ⟨compareFlags_of_lt, compareFlags_of_gt, compareFlags_of_eq, rfl, fun _ _ => rfl, memKept_of_eq [] rfl,
    rfl, rfl, rfl, rfl⟩

end Sys2Proof.Machine
end

section
/-! PROOFS. Data movement (spec/42_data_movement.md R102). -/

namespace Sys2Proof.Machine

/-- Settles O9: LDI is a one-register instruction whose one effect is its second operand byte in `x[ra]`, and its operand
check sees the first byte only. -/
theorem ldiWritesTheImmediate : Obligations.LdiWritesTheImmediate := by
  refine ⟨fun _ _ => rfl, fun s ra imm hr => ?_, fun imm => ?_⟩
  · have hpc : (describe Op.ldi.opcode).setsPc = false := by decide
    exact exists_of_exec_eq_writeReg hr hpc (exec_ldi s ra imm)
  · exact checksOne_of_exec_eq_withReg fun _ _ => rfl

end Sys2Proof.Machine
end

section
/-! PROOFS. Control transfer (spec/43_control_transfer.md R111, R118, R119): JMP, RET, and what CALL leaves on the stack
for RET. -/

namespace Sys2Proof.Machine

/-! ### What a write of PC and a pop leave unchanged -/

theorem WritesOnlyRegs.refl (s : State) : WritesOnlyRegs [] s s :=
  ⟨fun _ _ => rfl, rfl, fun _ _ => rfl, rfl, rfl, rfl, rfl⟩

/-- The frame says nothing of PC, so PC may be written besides. -/
theorem WritesOnlyRegs.writePc {except : List RegIndex} {s t : State} (h : WritesOnlyRegs except s t) (n : Nat) :
    WritesOnlyRegs except s (t.writePc n) := h

theorem writesOnlyRegs_incSp (s : State) : WritesOnlyRegs [Config.spIndex] s s.incSp :=
  ⟨fun _ hr => s.readReg_incSp_ne (List.ne_of_not_mem_cons hr), s.incSp_fl, memKept_of_eq [] s.incSp_mem,
    s.incSp_ir, s.incSp_run, s.incSp_err, s.incSp_out⟩

/-! ### JMP, CALL and RET set PC themselves (R110) -/

/-- Bit 4 of the opcode is 1: there is no automatic advance. -/
theorem complete_ok_setsPc {o : Op} (h : (describe o.opcode).setsPc = true) (s t : State) :
    complete o s (.ok t) = .next t := by
  rw [complete_ok, advancePc_setsPc h]

theorem exec_jmp_eq_next (s : State) (ra : RegIndex) :
    exec (.jmp (regByte ra)) s = .next (s.writePc (s.readReg ra).toNat) :=
  (exec_jmp s ra).trans (complete_ok_setsPc (by decide) s _)

/-- RET goes to whatever byte lies at SP. -/
theorem exec_ret_of_byteAt {s : State} {v : Byte} (h : ByteAt s s.sp.toNat v) :
    exec .ret s = .next (s.incSp.writePc v.toNat) := by
  obtain ⟨-, rfl⟩ := memRead_eq_ok.mp h
  exact (exec_ret s).trans (complete_ok_setsPc (by decide) s _)

/-- A CALL leaves SP one lower, and the return address at SP (R118). -/
theorem sp_and_byteAt_of_exec_call {s u : State} {ra : RegIndex} (hpc : s.pc + 2 < 256)
    (h : exec (.call (regByte ra)) s = .next u) :
    u.sp = s.decSp.sp ∧ ByteAt u u.sp.toNat (BitVec.ofNat 8 (s.pc + 2)) := by
  rw [exec_call s ra hpc, complete_ok_setsPc (by decide)] at h
  cases h
  exact ⟨rfl, memRead_eq_ok.mpr ⟨s.decSp.sp.isLt, Memory.get_set_self _ _ _⟩⟩

/-- The increment of a pop takes back the decrement of a push, also where SP wraps (R100, R101). -/
theorem incSp_sp_of_sp_eq_decSp {s w : State} (h : w.sp = s.decSp.sp) : w.incSp.sp = s.sp := by
  apply BitVec.eq_of_toNat_eq
  have := s.sp.isLt
  rw [w.incSp_sp_toNat, h, s.decSp_sp_toNat]
  omega

/-! ### The instructions -/

/-- Settles O16: JMP writes PC alone, and has the one-register form. -/
theorem jmpGoesToTheRegister : Obligations.JmpGoesToTheRegister := by
  refine ⟨fun _ => rfl, fun s ra _ => ?_, checksOne_of_exec_eq_withReg fun _ _ => rfl⟩
  exact ⟨_, exec_jmp_eq_next s ra, rfl, (WritesOnlyRegs.refl s).writePc _⟩

/-- Settles O21: RET goes to the byte at SP, which after a CALL is the return address, stored one below the old SP. -/
theorem retPopsIntoPcAndUndoesCall : Obligations.RetPopsIntoPcAndUndoesCall := by
  refine ⟨rfl, fun s v _ hv => ?_, fun s u w ra _ hpc hcall _ hsp hmem => ?_⟩
  · exact ⟨_, exec_ret_of_byteAt hv, rfl, s.incSp_sp_toNat, (writesOnlyRegs_incSp s).writePc _⟩
  · obtain ⟨hu, hret⟩ := sp_and_byteAt_of_exec_call (Nat.lt_succ_of_le hpc) hcall
    have hw : ByteAt w w.sp.toNat (BitVec.ofNat 8 (s.pc + 2)) := by
      rw [hsp]
      exact hmem.trans hret
    refine ⟨_, exec_ret_of_byteAt hw, ?_, incSp_sp_of_sp_eq_decSp (hsp.trans hu)⟩
    exact (BitVec.toNat_ofNat _ _).trans (Nat.mod_eq_of_lt (Nat.lt_succ_of_le hpc))

end Sys2Proof.Machine
end

section
/-! PROOFS. NOP and the run off the end of memory (spec/44_system.md R125): one step at a zero byte, a run over zero bytes
by induction, and the step at a PC that memory does not reach. -/

namespace Sys2Proof.Machine

theorem exec_nop_running {s : State} (hr : s.run = .running) : exec .nop s = .next (s.writePc (s.pc + 1)) := by
  have hpc : (describe Op.nop.opcode).setsPc = false := by decide
  rw [exec_nop, complete_ok, advancePc_running hr hpc]
  rfl

/-- The byte 0 asks for no operand and is NOP's, so the fetch hands on NOP also at address 255. -/
theorem fetch_of_zero {s : State} (h : ByteAt s s.pc 0x00#8) : fetch s = .run .nop (s.writeIr 0x00#8) := by
  have hb : s.readByte s.pc = .ok 0x00#8 := h
  rw [fetch, hb]
  rfl

theorem step_of_zero {s : State} (hr : s.run = .running) (h : ByteAt s s.pc 0x00#8) :
    step s = .next ((s.writeIr 0x00#8).writePc (s.pc + 1)) := by
  rw [step_running hr, fetch_of_zero h]
  exact exec_nop_running hr

/-- Over `k` zero bytes a run of `k` steps moves PC past them and writes nothing else but IR. -/
theorem runFor_of_zeros : ∀ (k : Nat) {s : State}, s.run = .running →
    (∀ addr, s.pc ≤ addr → addr < s.pc + k → ByteAt s addr 0x00#8) →
    ∃ ir, runFor k s = (s.writeIr ir).writePc (s.pc + k)
  | 0, s, _, _ => ⟨s.ir, rfl⟩
  | k + 1, s, hr, hz => by
    have hstep := step_of_zero hr (hz s.pc le_rfl (by omega))
    have hrest : ∀ addr, s.pc + 1 ≤ addr → addr < s.pc + 1 + k → ByteAt s addr 0x00#8 :=
      fun addr hlo hhi => hz addr (by omega) (by omega)
    obtain ⟨ir, hir⟩ := runFor_of_zeros k (s := (s.writeIr 0x00#8).writePc (s.pc + 1)) hr hrest
    refine ⟨ir, ?_⟩
    rw [runFor, hstep, Nat.add_comm k, ← Nat.add_assoc]
    exact hir

/-- The opcode fetch above 255 is the step's one fault (R142). -/
theorem step_of_pc_ge {s : State} (hr : s.run = .running) (h : 256 ≤ s.pc) :
    step s = .next (raise (.outOfBounds s.pc) s) := by
  have hb : s.readByte s.pc = .error (.outOfBounds s.pc) := memRead_ge s.mem h
  rw [step_running hr, fetch, hb]

/-- Settles O22: the zero bytes from PC to 255 are `256 - PC` many, so their run ends at PC 256, where the opcode fetch
faults. -/
theorem nopAdvancesAndRunsOffTheEnd : Obligations.NopAdvancesAndRunsOffTheEnd := by
  refine ⟨rfl, fun s hr => ?_, fun s hr hb => ?_, fun s hr hpc hz => ?_⟩
  · exact ⟨_, exec_nop_running hr, rfl, (WritesOnlyRegs.refl s).writePc _⟩
  · exact ⟨_, step_of_zero hr hb, rfl, rfl⟩
  · obtain ⟨ir, hrun⟩ := runFor_of_zeros (256 - s.pc) hr fun addr hlo hhi => hz addr hlo (by omega)
    rw [Nat.add_sub_cancel' hpc] at hrun
    have hoff : step ((s.writeIr ir).writePc 256) = .next (raise (.outOfBounds 256) ((s.writeIr ir).writePc 256)) :=
      step_of_pc_ge hr le_rfl
    exact ⟨_, _, hrun, hr, rfl, (WritesOnlyRegs.refl (s.writeIr ir)).writePc 256, hoff, faulted_raise _ _⟩

end Sys2Proof.Machine
end

section
/-! PROOFS. Exceptions (spec/60_exceptions.md R145, R146): DivisionByZero, and UnknownOpcode with the operand fetch
faults that come before it (R151). -/

namespace Sys2Proof.Machine

/-! ### The unknown opcode bytes (30_encoding.md R52, R57) -/

/-- The bytes R57 lists are the ones the table does not have. -/
theorem lookup_eq_none_iff_unknownByte : ∀ op : Byte, lookup op = none ↔ UnknownByte op := by
  unfold UnknownByte
  decide +kernel

theorem operandBytes_eq_fetchCount (op : Byte) : operandBytes op = fetchCount op := (fetchCount_eq op).symm

/-! ### The fetch faults of a step that has fetched its opcode -/

/-- At most two operand bytes are fetched, one after the other, so the first that is missing is the one at 256. -/
theorem fetchOperands_outOfBounds {op : Byte} {s : State} (hpc : s.pc < 256) (h : 256 ≤ s.pc + fetchCount op) :
    fetchOperands op s = .error (.outOfBounds 256) := by
  have hcount : fetchCount op ≤ 2 := Nat.min_le_right _ _
  obtain h255 | h254 : s.pc + 1 = 256 ∨ s.pc + 2 = 256 := by omega
  · rw [fetchOperands, fetchOperand_outOfBounds op 1 s (by omega) h255.ge, except_bind_error, h255]
  · rw [fetchOperands, fetchOperand_ok op 1 s (by omega), except_bind_ok,
      fetchOperand_outOfBounds op 2 s (by omega) h254.ge, except_bind_error, h254]

theorem step_of_fetchOperands_eq_error {s : State} {op : Byte} {f : Fault} (hr : s.run = .running)
    (hop : ByteAt s s.pc op) (h : fetchOperands op (s.writeIr op) = .error f) :
    step s = .next (raise f (s.writeIr op)) := by
  have hb : s.readByte s.pc = .ok op := hop
  rw [step_running hr, fetch, hb]
  simp only [fetchRest, h]

/-- A byte that is not in the table faults at dispatch, after its operand bytes were fetched (R151). -/
theorem step_of_lookup_eq_none {s : State} {op : Byte} (hr : s.run = .running) (hop : ByteAt s s.pc op)
    (hl : lookup op = none) (hpc : s.pc + fetchCount op < 256) :
    step s = .next (raise (.unknownOpcode op) (s.writeIr op)) := by
  have hb : s.readByte s.pc = .ok op := hop
  rw [step_running hr, fetch, hb]
  simp only [fetchRest, fetchOperands_ok op (s.writeIr op) hpc, hl]

/-- A step that records UnknownOpcode found that byte at PC, and the table does not have it: no operand fetch and no
instruction raises the fault. -/
theorem lookup_eq_none_of_step_unknownOpcode {s t : State} {byte : Byte} (herr : s.err = none) (h : step s = .next t)
    (ht : t.err = some (.unknownOpcode byte)) : ByteAt s s.pc byte ∧ lookup byte = none := by
  obtain ⟨-, ⟨-, rfl⟩ | ⟨op, hop, ⟨f, hf, rfl⟩ | ⟨hl, rfl⟩ | ⟨o, a, b, -, -, he⟩⟩⟩ := step_cases h
  · cases ht
  · obtain rfl := Option.some.inj ht
    obtain ⟨-, -, hf⟩ | ⟨-, -, hf⟩ := fetchOperands_eq_error hf <;> cases hf
  · cases ht
    exact ⟨hop, hl⟩
  · obtain ⟨f, hf, rfl⟩ | ⟨u, hu, rfl⟩ := exec_cases he
    · exact absurd (Option.some.inj ht) (hf.ne_fetch.2 byte)
    · rw [advancePc_err, hu.err, State.writeIr_err, herr] at ht
      cases ht

/-! ### The obligations -/

/-- Settles O29: the listed bytes are the ones the table does not have; for those the operand fetches decide between the
two faults, and for the others no stage of the step raises UnknownOpcode. -/
theorem unknownOpcodeBytesFault : Obligations.UnknownOpcodeBytesFault := by
  intro s op hr herr hop
  rw [← lookup_eq_none_iff_unknownByte, operandBytes_eq_fetchCount]
  refine ⟨fun hl hpc => ?_, fun _ hpc => ?_, fun hl t byte h ht => ?_⟩
  · exact ⟨_, step_of_lookup_eq_none hr hop hl (Nat.lt_succ_of_le hpc), faulted_raise _ (s.writeIr op)⟩
  · obtain ⟨hlt, -⟩ := memRead_eq_ok.mp hop
    have hf : fetchOperands op (s.writeIr op) = .error (.outOfBounds 256) := fetchOperands_outOfBounds hlt hpc
    exact ⟨_, step_of_fetchOperands_eq_error hr hop hf, faulted_raise _ (s.writeIr op)⟩
  · obtain ⟨hbyte, hnone⟩ := lookup_eq_none_of_step_unknownOpcode herr h ht
    obtain rfl := hop.unique hbyte
    exact hl hnone

/-- Settles O6: with a zero divisor DIV and MOD end in the fault, before anything is written. -/
theorem divModByZeroTakesDivisionByZero : Obligations.DivModByZeroTakesDivisionByZero := by
  intro s ra rb hb
  have hz : (s.readReg rb).toNat = 0 := congrArg BitVec.toNat hb
  constructor
  · exact takes_of_exec_eq_raise (by rw [exec_div, if_pos hz, complete_error])
  · exact takes_of_exec_eq_raise (by rw [exec_mod, if_pos hz, complete_error])

end Sys2Proof.Machine
end

section
/-! PROOFS. The decoder and the encoder (spec/30_encoding.md R50 to R57) undo each other. -/

namespace Sys2Proof

/-- An instruction is built from its operation and the operand bytes it holds. -/
theorem build_getD_operands (i : Instr) :
    build i.op (i.operands[0]?.getD 0#8) (i.operands[1]?.getD 0#8) = i := by
  cases i <;> rfl

/-- The operand bytes an instruction holds are as many as its opcode byte asks for, so the decoder takes just those. -/
theorem takeOperands_operands (i : Instr) (rest : List Byte) :
    takeOperands i.op.opcode i.op (i.operands ++ rest) = .ok (i, rest) := by
  have hbuild : Except.ok (ε := DecodeError)
      (build i.op (i.operands[0]?.getD 0#8) (i.operands[1]?.getD 0#8), rest) = .ok (i, rest) := by
    rw [build_getD_operands]
  have hlength := operands_length i
  have hle := operandCount_opcode_le i.op
  unfold takeOperands
  rw [← hlength] at hle ⊢
  generalize i.operands = bytes at *
  match bytes, hle with
  | [], _ => exact hbuild
  | [_], _ => exact hbuild
  | [_, _], _ => exact hbuild

theorem decode_encode_append (i : Instr) (rest : List Byte) : decode (encode i ++ rest) = .ok (i, rest) := by
  rw [encode, List.cons_append, decode, lookup_opcode]
  exact takeOperands_operands i rest

/-- The bytes of the instruction built from two operand bytes hold as many of them as `AA` counts. -/
theorem encode_build (o : Op) (a b : Byte) :
    encode (build o a b) = o.opcode :: [a, b].take (describe o.opcode).operandCount := by
  rw [encode, build_op, Machine.build_operands, fetchCount, Nat.min_eq_left (operandCount_opcode_le o)]

theorem eq_encode_append_of_decode {bytes rest : List Byte} {i : Instr} (h : decode bytes = .ok (i, rest)) :
    bytes = encode i ++ rest := by
  obtain ⟨byte, o, tail, rfl, hl, ht⟩ := decode_cases h
  obtain rfl := opcode_of_lookup byte o hl
  obtain ⟨hn, rfl, rfl⟩ | ⟨a, hn, rfl, rfl⟩ | ⟨a, b, hn, rfl, rfl⟩ := takeOperands_cases ht
  all_goals rw [encode_build, hn]; rfl

/-- Settles O26: the opcode is found in the table, and the operand bytes are taken back. -/
theorem encodeThenDecodeIsIdentity : Obligations.EncodeThenDecodeIsIdentity := decode_encode_append

/-- Settles O27: an accepted sequence begins with a table byte, and then has the operand bytes that byte counts. -/
theorem decodeThenEncodeIsIdentity : Obligations.DecodeThenEncodeIsIdentity :=
  fun _ _ _ => eq_encode_append_of_decode

/-- Settles O28: each word is the encoding of its instruction, which the decoder gives back. -/
theorem sampleWordsDecode : Obligations.SampleWordsDecode :=
  ⟨decode_encode_append (.ldi 0x00#8 0x08#8) [], decode_encode_append (.prn 0x00#8) [],
    decode_encode_append .hlt [], decode_encode_append (.add 0x00#8 0x01#8) [],
    decode_encode_append (.call 0x01#8) [], decode_encode_append (.st 0x00#8 0x01#8) []⟩

end Sys2Proof
end

section
/-! PROOFS. The step (spec/40_fetch_execute_cycle.md R65 to R72): when it answers, what it does at an instruction whose
bytes lie at PC, and what it can end in. -/

namespace Sys2Proof.Machine

/-! ### A next state, or the refusal of a halted engine -/

theorem exists_exec_eq_next (i : Instr) (s : State) : ∃ t, exec i s = .next t := by
  obtain ⟨f, -, h⟩ | ⟨u, -, h⟩ := exec_answers i s
  · exact ⟨_, h⟩
  · exact ⟨_, h⟩

theorem exists_step_eq_next {s : State} (hr : s.run = .running) : ∃ t, step s = .next t := by
  rw [step_running hr]
  cases fetch s with
  | run i u => exact exists_exec_eq_next i u
  | faulted u => exact ⟨u, rfl⟩

/-- Settles O32: every end of the fetch stages answers, and so does every instruction. -/
theorem runningAnswersAndHaltedRefuses : Obligations.RunningAnswersAndHaltedRefuses :=
  ⟨fun _ => exists_step_eq_next, exists_exec_eq_next, fun _ => step_halted⟩

/-! ### The step at an instruction -/

/-- The bytes of `i` lie in memory from PC up (30_encoding.md R50). -/
def InstrAt (s : State) (i : Instr) : Prop :=
  ∀ {k : Nat} {v : Byte}, (encode i)[k]? = some v → ByteAt s (s.pc + k) v

theorem InstrAt.opcode {s : State} {i : Instr} (h : InstrAt s i) : ByteAt s s.pc i.op.opcode :=
  h (k := 0) rfl

theorem InstrAt.operand {s : State} {i : Instr} (h : InstrAt s i) {k : Nat} {v : Byte}
    (hv : i.operands[k]? = some v) : ByteAt s (s.pc + 1 + k) v := by
  rw [Nat.add_assoc, Nat.add_comm 1]
  exact h hv

/-- The last byte of the instruction is a memory cell too. -/
theorem InstrAt.pc_add_le {s : State} {i : Instr} (h : InstrAt s i) :
    s.pc + 1 + i.operands.length ≤ 256 := by
  have hlast : i.operands.length < (encode i).length := Nat.lt_succ_self _
  obtain ⟨hlt, -⟩ := memRead_eq_ok.mp (h (List.getElem?_eq_getElem hlast))
  omega

/-- The bytes listed lie in memory from an address up. -/
def BytesAt (s : State) : Nat → List Byte → Prop
  | _, [] => True
  | addr, v :: rest => ByteAt s addr v ∧ BytesAt s (addr + 1) rest

theorem BytesAt.byteAt {s : State} : ∀ {bytes : List Byte} {addr k : Nat} {v : Byte}, BytesAt s addr bytes →
    bytes[k]? = some v → ByteAt s (addr + k) v
  | _ :: _, _, 0, _, h, hv => Option.some.inj hv ▸ h.1
  | _ :: _, addr, k + 1, _, h, hv => by
    rw [Nat.add_comm k, ← Nat.add_assoc]
    exact h.2.byteAt hv

theorem instrAt_of_bytesAt {s : State} {i : Instr} (h : BytesAt s s.pc (encode i)) : InstrAt s i := h.byteAt

theorem fetchCount_opcode (i : Instr) : fetchCount i.op.opcode = i.operands.length := by
  rw [operands_length, fetchCount, Nat.min_eq_left (operandCount_opcode_le i.op)]

/-- Operand byte number `k + 1` is the one the instruction holds; when it holds none, none is fetched. -/
theorem InstrAt.fetchOperand {s : State} {i : Instr} (h : InstrAt s i) (k : Nat) :
    fetchOperand i.op.opcode (k + 1) s = .ok (i.operands[k]?.getD 0#8) := by
  rw [Machine.fetchOperand, fetchCount_opcode]
  split
  · next hk =>
    have hb : ByteAt s (s.pc + 1 + k) i.operands[k] := h.operand (List.getElem?_eq_getElem hk)
    rw [Nat.add_assoc, Nat.add_comm 1] at hb
    rw [List.getElem?_eq_getElem hk]
    exact hb
  · next hk => rw [List.getElem?_eq_none (Nat.le_of_not_lt hk), Option.getD_none]

theorem InstrAt.step {s : State} {i : Instr} (h : InstrAt s i) (hr : s.run = .running) :
    step s = exec i (s.writeIr i.op.opcode) := by
  have hop : s.readByte s.pc = .ok i.op.opcode := h.opcode
  have hir : InstrAt (s.writeIr i.op.opcode) i := h
  rw [step_running hr, fetch, hop]
  simp only [fetchRest, fetchOperands, hir.fetchOperand 0, hir.fetchOperand 1, except_bind_ok, except_pure,
    lookup_opcode, build_getD_operands]

/-- Bytes in memory from PC up that begin with the encoding of `i` hold `i`. -/
theorem instrAt_of_bytes {s : State} {i : Instr} {bytes rest : List Byte} (hb : bytes = encode i ++ rest)
    (h : ∀ {k : Nat} {v : Byte}, bytes[k]? = some v → ByteAt s (s.pc + k) v) : InstrAt s i := by
  intro k v hv
  obtain ⟨hk, -⟩ := List.getElem?_eq_some_iff.mp hv
  refine h ?_
  rw [hb, List.getElem?_append_left hk, hv]

theorem byteAt_of_getElem?_bytesFrom {s : State} {k : Nat} {v : Byte} (h : (bytesFrom s.mem s.pc)[k]? = some v) :
    ByteAt s (s.pc + k) v := by
  obtain ⟨hk, hv⟩ := List.getElem?_eq_some_iff.mp h
  simp only [bytesFrom, Config.memSize, List.length_map, List.length_range', List.getElem_map, List.getElem_range',
    one_mul] at hk hv
  exact memRead_eq_ok.mpr ⟨by omega, hv⟩

/-- Settles O30: what the decoder reads from the bytes at PC is an instruction whose encoding lies there. -/
theorem stepRunsTheDecodedInstruction : Obligations.StepRunsTheDecodedInstruction := by
  intro s i rest hr h
  have hi : InstrAt s i := instrAt_of_bytes (eq_encode_append_of_decode h) byteAt_of_getElem?_bytesFrom
  exact hi.step hr

end Sys2Proof.Machine
end

section
/-! PROOFS. The fault of a step (spec/60_exceptions.md R141 to R151): where it comes from, the order of the fetch
faults, and what the state after it keeps. -/

namespace Sys2Proof.Machine

/-! ### Everything a step can end in -/

/-- The faults a step takes once it has fetched the opcode byte `op`, each with its reason. -/
inductive StepFault (s : State) (op : Byte) : Fault → Prop where
  /-- An operand byte is asked for that would lie at 256. -/
  | operand (h : 256 ≤ s.pc + fetchCount op) : StepFault s op (.outOfBounds 256)
  | unknown (h : lookup op = none) : StepFault s op (.unknownOpcode op)
  /-- The instruction at PC takes the fault. -/
  | exec (i : Instr) (f : Fault) (hop : i.op.opcode = op) (hi : InstrAt s i) (hf : FaultOf (s.writeIr op) i f) :
      StepFault s op f

/-- The operand bytes that were fetched lie in memory behind the opcode byte. -/
theorem instrAt_build {s : State} {o : Op} {a b : Byte} (hop : ByteAt s s.pc o.opcode)
    (h : fetchOperands o.opcode s = .ok (a, b)) : InstrAt s (build o a b) := by
  intro k v hv
  cases k with
  | zero =>
    rw [encode, build_op] at hv
    cases hv
    exact hop
  | succ k =>
    rw [Nat.add_comm k, ← Nat.add_assoc]
    exact byteAt_operand_of_fetchOperands h hv

/-- The only fault of the operand fetches is OutOfBounds(256). -/
theorem fetchOperands_eq_error_iff {op : Byte} {s : State} {f : Fault} (hpc : s.pc < 256) :
    fetchOperands op s = .error f ↔ 256 ≤ s.pc + fetchCount op ∧ f = .outOfBounds 256 := by
  by_cases h : s.pc + fetchCount op < 256
  · simp [fetchOperands_ok op s h, Nat.not_le.mpr h]
  · simp [fetchOperands_outOfBounds hpc (Nat.le_of_not_lt h), Nat.le_of_not_lt h, eq_comm]

/-- A step that answers a next state took the fault of the opcode fetch, took a later fault with IR written, or
completed the instruction at PC. -/
theorem step_inversion {s t : State} (h : step s = .next t) :
    (256 ≤ s.pc ∧ t = raise (.outOfBounds s.pc) s) ∨
    (∃ op f, ByteAt s s.pc op ∧ StepFault s op f ∧ t = raise f (s.writeIr op)) ∨
    ∃ i, InstrAt s i ∧ Completes s i t := by
  obtain ⟨-, ⟨hpc, ht⟩ | ⟨op, hop, ⟨f, hf, ht⟩ | ⟨hl, ht⟩ | ⟨o, a, b, hl, hf, he⟩⟩⟩ := step_cases h
  · exact .inl ⟨hpc, ht⟩
  · obtain ⟨hlt, -⟩ := memRead_eq_ok.mp hop
    obtain ⟨hpc, rfl⟩ := (fetchOperands_eq_error_iff (s := s.writeIr op) hlt).mp hf
    exact .inr (.inl ⟨op, _, hop, .operand hpc, ht⟩)
  · exact .inr (.inl ⟨op, _, hop, .unknown hl, ht⟩)
  · obtain rfl := opcode_of_lookup op o hl
    have hi : InstrAt s (build o a b) := instrAt_build hop hf
    obtain ⟨f, hf, ht⟩ | ⟨u, hu, ht⟩ := exec_cases he
    · exact .inr (.inl ⟨_, f, hop, .exec _ f (by rw [build_op]) hi hf, ht⟩)
    · refine .inr (.inr ⟨build o a b, hi, hi.opcode, hi.operand, u, ?_, ht⟩)
      rwa [build_op]

theorem Completes.err {s t : State} {i : Instr} (h : Completes s i t) : t.err = s.err := by
  obtain ⟨u, hu, rfl⟩ := h.effect
  rw [advancePc_err, hu.err, State.writeIr_err]

theorem Completes.ir {s t : State} {i : Instr} (h : Completes s i t) : t.ir = i.op.opcode := by
  obtain ⟨u, hu, rfl⟩ := h.effect
  rw [advancePc_ir, hu.ir, State.writeIr_ir]

/-- IR holds the opcode byte after every step that fetched one (10_state.md R18). -/
theorem ir_of_step {s t : State} {op : Byte} (hop : ByteAt s s.pc op) (h : step s = .next t) : t.ir = op := by
  obtain ⟨hpc, -⟩ | ⟨op', f, hop', -, rfl⟩ | ⟨i, -, hi⟩ := step_inversion h
  · obtain ⟨hlt, -⟩ := memRead_eq_ok.mp hop
    omega
  · exact hop'.unique hop
  · rw [hi.ir, hi.opcode.unique hop]

/-! ### The fetch faults -/

theorem exists_step_of_operand_at_256 {s : State} {op : Byte} (hr : s.run = .running) (hop : ByteAt s s.pc op)
    (h : 256 ≤ s.pc + operandBytes op) :
    ∃ t, step s = .next t ∧ Faulted (.outOfBounds 256) { s with ir := op } t := by
  obtain ⟨hlt, -⟩ := memRead_eq_ok.mp hop
  rw [operandBytes_eq_fetchCount] at h
  have hf : fetchOperands op (s.writeIr op) = .error (.outOfBounds 256) := fetchOperands_outOfBounds hlt h
  exact ⟨_, step_of_fetchOperands_eq_error hr hop hf, faulted_raise _ (s.writeIr op)⟩

/-- Only the operand fetches raise OutOfBounds after the opcode fetch. -/
theorem StepFault.fetchCount_of_outOfBounds {s : State} {op : Byte} {addr : Nat}
    (h : StepFault s op (.outOfBounds addr)) : 256 ≤ s.pc + fetchCount op := by
  cases h with
  | operand h => exact h
  | exec i _ _ _ hf => exact absurd rfl (hf.ne_fetch.1 addr)

/-- Settles O31: at 255 and 254 the missing operand byte is the one at 256; with all bytes in memory neither fetch
faults, and no instruction raises OutOfBounds. -/
theorem fetchFaultsInStageOrder : Obligations.FetchFaultsInStageOrder := by
  refine ⟨fun s hr hpc => ?_, fun s op hr hpc hop hn => ?_, fun s op hr hpc hop hn => ?_,
    fun s t op addr _ herr hop hpc h ht => ?_⟩
  · exact ⟨_, step_of_pc_ge hr hpc, faulted_raise _ s⟩
  · exact exists_step_of_operand_at_256 hr hop (by omega)
  · exact exists_step_of_operand_at_256 hr hop (by omega)
  · rw [operandBytes_eq_fetchCount] at hpc
    obtain ⟨hge, -⟩ | ⟨op', f, hop', hf, rfl⟩ | ⟨i, -, hi⟩ := step_inversion h
    · omega
    · obtain rfl := hop'.unique hop
      obtain rfl : f = .outOfBounds addr := Option.some.inj ht
      have := hf.fetchCount_of_outOfBounds
      omega
    · rw [hi.err, herr] at ht
      cases ht

/-! ### The state after a fault -/

/-- Settles O33: fault entry writes RUN and ERR alone, and IR alone is written before it, by the opcode fetch. -/
theorem faultingStepKeepsEverything : Obligations.FaultingStepKeepsEverything := by
  intro s t f _ herr h hf
  have hir : ∀ op, ByteAt s s.pc op → t.ir = op := fun op hop => ir_of_step hop h
  obtain ⟨hpc, rfl⟩ | ⟨op, f', hop, -, rfl⟩ | ⟨i, -, hi⟩ := step_inversion h
  · exact ⟨rfl, rfl, rfl, rfl, fun _ _ => rfl, fun _ _ => rfl, fun _ => rfl, hir⟩
  · obtain ⟨hlt, -⟩ := memRead_eq_ok.mp hop
    exact ⟨rfl, rfl, rfl, rfl, fun _ _ => rfl, fun _ _ => rfl, fun hpc => by omega, hir⟩
  · rw [hi.err, herr] at hf
    cases hf

/-- Settles O25: the meanings of the two instructions are the fault itself. -/
theorem intAndIretTakeUnsupportedOperation : Obligations.IntAndIretTakeUnsupportedOperation :=
  fun s a => ⟨takes_of_exec_eq_raise (exec_int s a), takes_of_exec_eq_raise (exec_iret s)⟩

end Sys2Proof.Machine
end

section
/-! PROOFS. What every step keeps: the bound of PC (spec/10_state.md R14, R15) and the invariant, kept by every action
of the host too (spec/70_reset_and_hazards.md section 4). -/

namespace Sys2Proof.Machine

/-! ### PC after a completed instruction -/

/-- All the bytes of a completed instruction lie in memory, so moving past them ends at 256 at most; a jump goes to a
byte, or past two bytes that lie in memory. -/
theorem Completes.pc_le {s t : State} {i : Instr} (h : Completes s i t) (hi : InstrAt s i) (hr : s.run = .running) :
    t.pc ≤ 256 := by
  have hend := hi.pc_add_le
  cases ht : t.run with
  | halted =>
    rw [h.pc_of_halted hr ht]
    omega
  | running =>
    cases hs : i.op.opcode.getLsbD 4 with
    | false =>
      rw [h.pc_of_not_setsPc ht hs, ← describe_operandCount, ← operands_length]
      exact hend
    | true =>
      obtain ⟨-, hpc⟩ | ⟨ra, hra, hpc | hpc⟩ := h.pc_of_setsPc hs
      · exact hpc ▸ (BitVec.isLt _).le
      · exact hpc ▸ (BitVec.isLt _).le
      · obtain ⟨hlt, -⟩ := memRead_eq_ok.mp hra
        omega

/-- Settles O35: a step that takes no fault completed the instruction at PC. -/
theorem completedStepLeavesPcAtMost256 : Obligations.CompletedStepLeavesPcAtMost256 := by
  intro s t hr _ h ht
  obtain ⟨-, rfl⟩ | ⟨op, f, -, -, rfl⟩ | ⟨i, hi, hc⟩ := step_inversion h
  · cases ht
  · cases ht
  · exact hc.pc_le hi hr

/-! ### Each part of the invariant -/

theorem flagsLegal_compareFlags (va vb : Byte) : FlagsLegal (compareFlags va vb) := by
  obtain h | h | h := Nat.lt_trichotomy va.toNat vb.toNat
  · exact .inr (.inr (.inr (compareFlags_of_lt h)))
  · exact .inr (.inl (compareFlags_of_eq h))
  · exact .inr (.inr (.inl (compareFlags_of_gt h)))

theorem Completes.flagsLegal {s t : State} {i : Instr} (h : Completes s i t) (hs : FlagsLegal s.fl) :
    FlagsLegal t.fl := by
  obtain ⟨u, hu, rfl⟩ := h.effect
  rw [advancePc_fl]
  obtain hfl | ⟨-, va, vb, hfl⟩ := hu.fl
  · rwa [hfl]
  · rw [hfl]
    exact flagsLegal_compareFlags va vb

theorem Completes.mem_wf {s t : State} {i : Instr} (h : Completes s i t) (hs : s.mem.wf = true) : t.mem.wf = true := by
  obtain ⟨u, hu, rfl⟩ := h.effect
  rw [advancePc_mem]
  obtain hmem | ⟨addr, v, hmem, -⟩ := hu.mem
  · rwa [hmem]
  · rw [hmem]
    exact Memory.wf_set s.mem addr.toNat v addr.isLt hs

/-- CALL is two bytes long, so its return address is above 255 only at 254. -/
theorem FaultOf.legal {s : State} {i : Instr} {f : Fault} (hi : InstrAt s i) (h : FaultOf s i f) : f.legal := by
  cases h with
  | invalidRegister _ a _ h8 => exact h8
  | div => exact .inl rfl
  | mod => exact .inr rfl
  | call ra hpc =>
    have hend : s.pc + 1 + 1 ≤ 256 := hi.pc_add_le
    exact Nat.le_antisymm hend hpc
  | int => exact .inl rfl
  | iret => exact .inr rfl

theorem StepFault.legal {s : State} {op : Byte} {f : Fault} (h : StepFault s op f) : f.legal := by
  cases h with
  | operand => exact ⟨le_rfl, by decide⟩
  | unknown h => exact h
  | exec i _ _ hi hf => exact FaultOf.legal (s := s.writeIr op) hi hf

/-- Fault entry with a datum the fault can carry keeps the invariant, IR written or not. -/
theorem Inv.raise {s : State} (h : Inv s) {f : Fault} (hf : f.legal) (ir : Byte) : Inv (raise f (s.writeIr ir)) where
  memory := h.memory
  flags := h.flags
  counter := h.counter
  record := fun hr => nomatch hr
  fault := fun _ hg => Option.some.inj hg ▸ hf

theorem Inv.completes {s t : State} {i : Instr} (h : Inv s) (hr : s.run = .running) (hi : InstrAt s i)
    (hc : Completes s i t) : Inv t := by
  have herr : t.err = none := hc.err.trans (h.record hr)
  exact {
    memory := hc.mem_wf h.memory
    flags := hc.flagsLegal h.flags
    counter := (hc.pc_le hi hr).trans (by decide)
    record := fun _ => herr
    fault := fun f hf => nomatch herr.symm.trans hf }

theorem Inv.step {s t : State} (hs : Inv s) (h : step s = .next t) : Inv t := by
  obtain ⟨hr, -⟩ := step_cases h
  obtain ⟨hpc, rfl⟩ | ⟨op, f, -, hf, rfl⟩ | ⟨i, hi, hc⟩ := step_inversion h
  · exact hs.raise (f := .outOfBounds s.pc) ⟨hpc, hs.counter⟩ s.ir
  · exact hs.raise hf.legal op
  · exact hs.completes hr hi hc

/-- Settles O36: fault entry keeps the invariant because the fault's datum is one its kind can carry, and a completed
instruction keeps each part of it. -/
theorem stepKeepsTheInvariant : Obligations.StepKeepsTheInvariant := fun _ _ => Inv.step

/-! ### The actions of the host -/

/-- Settles O37: memory is empty at reset, FL and PC are 0 and ERR is none. -/
theorem resetMeetsTheInvariant : Obligations.ResetMeetsTheInvariant where
  memory := rfl
  flags := .inl rfl
  counter := Nat.zero_le _
  record := fun _ => rfl
  fault := fun _ hf => nomatch hf

theorem Inv.load {s t : State} {program : List Byte} (hs : Inv s) (h : loadProgram program s = .ok t) : Inv t := by
  unfold loadProgram at h
  split at h
  · next hlen =>
    cases h
    exact {
      memory := Memory.wf_install program s.mem 0 ((Nat.zero_add _).trans_le hlen) hs.memory
      flags := hs.flags
      counter := Nat.zero_le _
      record := fun _ => rfl
      fault := fun _ hf => nomatch hf }
  · cases h

/-- Settles O38: a refused action leaves the state it found. -/
theorem hostActionsKeepTheInvariant : Obligations.HostActionsKeepTheInvariant := by
  intro action s hs
  cases action with
  | reset => exact resetMeetsTheInvariant
  | load program =>
    simp only [act]
    split
    · next t h => exact hs.load h
    · exact hs
  | step =>
    simp only [act]
    split
    · next t h => exact hs.step h
    · exact hs
    · exact hs
  | stop => exact hs

/-- Settles O58: from Halted a step is refused and stopping does nothing, so neither changes RUN. -/
theorem onlyResetOrLoadLeavesHalted : Obligations.OnlyResetOrLoadLeavesHalted := by
  intro action s hs ht
  cases action with
  | reset => exact .inl rfl
  | load program => exact .inr ⟨program, rfl⟩
  | step =>
    simp only [act, step_halted hs] at ht
    cases hs.symm.trans ht
  | stop => cases hs.symm.trans ht

end Sys2Proof.Machine
end

section
/-! PROOFS. What a step can change: FL, memory, OUT, the registers and RUN, each by which instruction (spec/10_state.md
R12, R16, R20, R23, 20_memory.md R36). A fault changes none of the first four, so each rule is read off the effect of the
instruction that was completed. -/

namespace Sys2Proof.Machine

theorem Completes.byteAt_of_op {s t : State} {i : Instr} {o : Op} (h : Completes s i t) (ho : i.op = o) :
    ByteAt s s.pc o.opcode :=
  ho ▸ h.opcode

theorem Completes.byteAt_of_head? {s t : State} {i : Instr} {v : Byte} (h : Completes s i t)
    (hv : i.operands.head? = some v) : ByteAt s (s.pc + 1) v :=
  h.operands (List.head?_eq_getElem? ▸ hv)

/-- Settles O39: CMP is the one instruction whose effect writes FL. -/
theorem onlyCmpChangesFlags : Obligations.OnlyCmpChangesFlags := by
  intro s t _ h hne
  obtain ⟨f, ir, rfl⟩ | ⟨i, hi⟩ := raise_or_completes_of_step h
  · exact absurd rfl hne
  · obtain ⟨u, hu, rfl⟩ := hi.effect
    obtain hfl | ⟨hop, -⟩ := hu.fl
    · exact absurd ((advancePc_fl _ u).trans hfl) hne
    · exact hi.byteAt_of_op hop

/-- Settles O40: the effect of PUSH, CALL and ST writes one cell, whose address is the one that reads otherwise. -/
theorem onlyStoresChangeMemory : Obligations.OnlyStoresChangeMemory := by
  intro s t addr _ h hne
  obtain ⟨f, ir, rfl⟩ | ⟨i, hi⟩ := raise_or_completes_of_step h
  · exact absurd rfl hne
  · obtain ⟨u, hu, rfl⟩ := hi.effect
    rw [advancePc_mem] at hne
    obtain hmem | ⟨cell, v, hmem, hwho⟩ := hu.mem
    · exact absurd (by rw [hmem]; rfl) hne
    · have haddr : addr = cell.toNat := by
        by_contra hother
        exact hne (by rw [hmem]; exact memRead_set_ne s.mem v hother)
      obtain ⟨hop, hsp⟩ | ⟨hop, ra, ha, hra⟩ := hwho
      · refine .inl ⟨?_, ?_⟩
        · exact hop.imp hi.byteAt_of_op hi.byteAt_of_op
        · rw [haddr, hsp]
          exact s.decSp_sp_toNat
      · exact .inr ⟨hi.byteAt_of_op hop, ra, hi.byteAt_of_head? ha, by rw [haddr, hra]; rfl⟩

/-- Settles O41: PRN and PRA are the instructions whose effect emits an event. -/
theorem onlyPrintsChangeOutput : Obligations.OnlyPrintsChangeOutput := by
  intro s t _ h
  obtain ⟨f, ir, rfl⟩ | ⟨i, hi⟩ := raise_or_completes_of_step h
  · exact .inl rfl
  · obtain ⟨u, hu, rfl⟩ := hi.effect
    rw [advancePc_out]
    obtain hout | ⟨v, hop, hout⟩ | ⟨v, hop, hout⟩ := hu.out
    · exact .inl hout
    · exact .inr (.inl ⟨v, hi.byteAt_of_op hop, hout⟩)
    · exact .inr (.inr ⟨v, hi.byteAt_of_op hop, hout⟩)

/-- Settles O42: an effect writes the register of the first operand byte, or moves SP. -/
theorem registersChangeOnlyWhenNamed : Obligations.RegistersChangeOnlyWhenNamed := by
  intro s t r _ h hne
  obtain ⟨f, ir, rfl⟩ | ⟨i, hi⟩ := raise_or_completes_of_step h
  · exact absurd rfl hne
  · obtain ⟨u, hu, rfl⟩ := hi.effect
    rw [readReg_advancePc] at hne
    obtain hkept | ha | ⟨rfl, hop⟩ := hu.readReg r
    · exact absurd hkept hne
    · exact .inl (hi.byteAt_of_head? ha)
    · refine .inr ⟨rfl, ?_⟩
      exact hop.imp hi.byteAt_of_op (.imp hi.byteAt_of_op (.imp hi.byteAt_of_op hi.byteAt_of_op))

/-! ### Halting (R23, 44_system.md R126) -/

/-- A step at a HLT completes it. -/
theorem step_of_hlt {s : State} (hr : s.run = .running) (hop : ByteAt s s.pc 0x01#8) :
    step s = .next (s.writeIr 0x01#8).halt := by
  have hi : InstrAt s .hlt := instrAt_of_bytesAt (show BytesAt s s.pc [0x01#8] from ⟨hop, trivial⟩)
  exact (hi.step hr).trans (exec_hlt _)

theorem Completes.eq_hlt_of_halted {s t : State} {i : Instr} (h : Completes s i t) (hr : s.run = .running)
    (ht : t.run = .halted) : i = .hlt := by
  obtain ⟨u, hu, rfl⟩ := h.effect
  obtain ⟨-, hrun⟩ | ⟨hhlt, -⟩ := hu.run
  · rw [advancePc_run, hrun, State.writeIr_run, hr] at ht
    cases ht
  · exact hhlt

/-- Settles O46: fault entry halts and leaves a record; a completed instruction leaves ERR none and halts only if it is
HLT. -/
theorem haltsOnlyByHltOrFault : Obligations.HaltsOnlyByHltOrFault := by
  intro s t hr herr h
  have hhlt : ByteAt s s.pc 0x01#8 → t.run = .halted ∧ t.err = none := fun hop => by
    cases h.symm.trans (step_of_hlt hr hop)
    exact ⟨rfl, herr⟩
  refine ⟨⟨fun ht => ?_, fun hor => ?_⟩, fun hop => (hhlt hop).2⟩
  · obtain ⟨f, ir, rfl⟩ | ⟨i, hi⟩ := raise_or_completes_of_step h
    · exact .inr (by simp)
    · obtain rfl := hi.eq_hlt_of_halted hr ht
      exact .inl hi.opcode
  · obtain hop | hfault := hor
    · exact (hhlt hop).1
    · obtain ⟨f, ir, rfl⟩ | ⟨i, hi⟩ := raise_or_completes_of_step h
      · rfl
      · exact absurd (hi.err.trans herr) hfault

/-- Settles O23: HLT writes RUN alone, and a halted engine refuses the step. -/
theorem hltHaltsInPlace : Obligations.HltHaltsInPlace := fun s _ =>
  ⟨s.halt, exec_hlt s, rfl, rfl, rfl, rfl, rfl, fun _ _ => rfl, rfl, fun _ _ => rfl, step_halted rfl⟩

end Sys2Proof.Machine
end

section
/-! PROOFS. What each instruction with bit 4 = 0 does in a running state, beyond those of the ALU with one result: DIV
and MOD (spec/41_alu.md section 2), the stack, LD and ST (spec/42_data_movement.md section 3), PRN and PRA
(spec/44_system.md section 1). -/

namespace Sys2Proof.Machine

/-! ### The end of an instruction, and the next state of each -/

/-- Bit 4 of the opcode is 0 and the engine is Running: PC moves past the `n` operand bytes. -/
theorem complete_ok_running (o : Op) (n : Nat)
    (hd : (describe o.opcode).setsPc = false ∧ (describe o.opcode).operandCount = n) (s : State) {u : State}
    (hr : u.run = .running) : complete o s (.ok u) = .next (u.writePc (u.pc + 1 + n)) := by
  rw [complete_ok, advancePc_running hr hd.1, hd.2]

/-- The state after a push of `v` (R100): SP one lower, `v` at the new SP. -/
def State.pushed (s : State) (v : Byte) : State := s.decSp.writeMem (s.mem.set s.decSp.sp.toNat v)

theorem exec_push_eq_next {s : State} (hr : s.run = .running) (ra : RegIndex) :
    exec (.push (regByte ra)) s = .next ((s.pushed (s.decSp.readReg ra)).writePc (s.pc + 2)) :=
  (exec_push s ra).trans (complete_ok_running .push 1 (by decide) s hr)

theorem exec_pop_eq_next {s : State} (hr : s.run = .running) {v : Byte} (hv : ByteAt s s.sp.toNat v) (ra : RegIndex) :
    exec (.pop (regByte ra)) s = .next ((s.writeReg ra v.toNat).incSp.writePc (s.pc + 2)) := by
  obtain ⟨-, rfl⟩ := memRead_eq_ok.mp hv
  exact (exec_pop s ra).trans (complete_ok_running .pop 1 (by decide) s hr)

theorem exec_st_eq_next {s : State} (hr : s.run = .running) (ra rb : RegIndex) :
    exec (.st (regByte ra) (regByte rb)) s =
      .next ((s.writeMem (s.mem.set (s.readReg ra).toNat (s.readReg rb))).writePc (s.pc + 3)) :=
  (exec_st s ra rb).trans (complete_ok_running .st 2 (by decide) s hr)

theorem exec_prn_eq_next {s : State} (hr : s.run = .running) (ra : RegIndex) :
    exec (.prn (regByte ra)) s = .next ((s.emit (.dec (s.readReg ra))).writePc (s.pc + 2)) :=
  (exec_prn s ra).trans (complete_ok_running .prn 1 (by decide) s hr)

theorem exec_pra_eq_next {s : State} (hr : s.run = .running) (ra : RegIndex) :
    exec (.pra (regByte ra)) s = .next ((s.emit (.chr (s.readReg ra))).writePc (s.pc + 2)) :=
  (exec_pra s ra).trans (complete_ok_running .pra 1 (by decide) s hr)

/-! ### DIV and MOD (R83, R84) -/

/-- A quotient of a byte is a byte, so masking it does nothing. -/
theorem aluDiv_toNat (va vb : Byte) : (aluDiv va vb).toNat = va.toNat / vb.toNat := by
  rw [aluDiv, ← BitVec.toNat_udiv, mask8_natCast_toNat]

/-- A remainder of a byte is a byte too. -/
theorem aluMod_toNat (va vb : Byte) : (aluMod va vb).toNat = va.toNat % vb.toNat := by
  rw [aluMod, ← BitVec.toNat_umod, mask8_natCast_toNat]

/-- Settles O5: with a divisor that is not zero the two instructions write their result, and nothing else. -/
theorem divModQuotientAndRemainder : Obligations.DivModQuotientAndRemainder := by
  intro s ra rb hr hb
  have hz : (s.readReg rb).toNat ≠ 0 := fun h => hb (BitVec.eq_of_toNat_eq h)
  constructor
  · obtain ⟨t, ht, hv, hpc, hw⟩ := exists_of_exec_eq_writeReg (o := .div) hr (by decide) (by rw [exec_div, if_neg hz])
    exact ⟨t, ht, by rw [hv, aluDiv_toNat], hpc, hw⟩
  · obtain ⟨t, ht, hv, hpc, hw⟩ := exists_of_exec_eq_writeReg (o := .mod) hr (by decide) (by rw [exec_mod, if_neg hz])
    exact ⟨t, ht, by rw [hv, aluMod_toNat], hpc, hw⟩

/-- Settles O7: the operand check comes before the body, where the divisor is looked at. -/
theorem divModCheckRegistersFirst : Obligations.DivModCheckRegistersFirst :=
  ⟨checksTwo_of_exec_eq_withRegs fun _ _ _ => rfl, checksTwo_of_exec_eq_withRegs fun _ _ _ => rfl⟩

/-! ### PUSH and POP (R100 to R104) -/

/-- R7 read after the decrement is the new SP (the spec's decision D13). -/
theorem State.readReg_decSp (s : State) (r : RegIndex) :
    s.decSp.readReg r = if r = Config.spIndex then s.decSp.sp else s.readReg r := by
  split
  · next h => rw [h]; rfl
  · next h => exact s.readReg_decSp_ne h

theorem State.byteAt_pushed (s : State) (v : Byte) : ByteAt (s.pushed v) (s.pushed v).sp.toNat v :=
  memRead_eq_ok.mpr ⟨s.decSp.sp.isLt, Memory.get_set_self _ _ _⟩

theorem State.memKept_pushed (s : State) (v : Byte) : MemKept [(s.sp.toNat + 255) % 256] s (s.pushed v) := by
  intro addr haddr
  rw [← s.decSp_sp_toNat] at haddr
  exact memRead_set_ne s.mem v (List.ne_of_not_mem_cons haddr)

theorem State.regsKept_pushed (s : State) (v : Byte) : RegsKept [Config.spIndex] s (s.pushed v) :=
  fun _ hr => s.readReg_decSp_ne (List.ne_of_not_mem_cons hr)

/-- Settles O10: the next state is the state after a push of the register as the decrement leaves it. -/
theorem pushStoresBelowTheStack : Obligations.PushStoresBelowTheStack := by
  refine ⟨fun s ra hr => ?_, checksOne_of_exec_eq_withReg fun _ _ => rfl⟩
  exact ⟨_, exec_push_eq_next hr ra, s.decSp_sp_toNat,
    (s.byteAt_pushed _).trans (congrArg Except.ok (s.readReg_decSp ra)), s.memKept_pushed (s.decSp.readReg ra), rfl,
    s.regsKept_pushed (s.decSp.readReg ra), rfl, rfl, rfl, rfl, rfl⟩

theorem writesOnlyRegs_incSp_writeReg (s : State) (ra : RegIndex) (v : Int) :
    WritesOnlyRegs [ra, Config.spIndex] s (s.writeReg ra v).incSp := by
  refine ⟨fun r hr => ?_, rfl, fun _ _ => rfl, rfl, rfl, rfl, rfl⟩
  obtain ⟨hra, hsp⟩ : r ≠ ra ∧ r ≠ Config.spIndex := by simpa using hr
  rw [State.readReg_incSp_ne _ hsp, s.readReg_writeReg_ne v hra]

/-- Settles O11: the register is written first, so the increment finds the old SP or, for R7, the byte popped. -/
theorem popLoadsFromTheStack : Obligations.PopLoadsFromTheStack := by
  refine ⟨fun s ra v hr hv => ?_, checksOne_of_exec_eq_withReg fun _ _ => rfl⟩
  have hself : (s.writeReg ra v.toNat).readReg ra = v := by
    rw [State.readReg_writeReg_self, mask8_natCast_toNat]
  have hinc : (s.writeReg ra v.toNat).incSp.sp.toNat =
      (((s.writeReg ra v.toNat).readReg Config.spIndex).toNat + 1) % 256 := State.incSp_sp_toNat _
  refine ⟨_, exec_pop_eq_next hr hv ra, fun hra => ⟨?_, ?_⟩, fun hra => ?_, rfl,
    (writesOnlyRegs_incSp_writeReg s ra v.toNat).writePc _⟩
  · exact (State.readReg_incSp_ne _ hra).trans hself
  · rwa [s.readReg_writeReg_ne _ hra.symm] at hinc
  · subst hra
    rwa [hself] at hinc

/-- Settles O12: POP finds at SP the byte that PUSH stored there, and its increment takes back PUSH's decrement. -/
theorem pushThenPopRoundTrip : Obligations.PushThenPopRoundTrip := by
  intro s r r2 hr hsp hsp2
  obtain ⟨u, hu, husp, hbyte, -, -, hukept, -, -, hurun, -⟩ := pushStoresBelowTheStack.1 s r hr
  rw [if_neg hsp] at hbyte
  obtain ⟨t, ht, hpop, -, -, htkept, -⟩ := popLoadsFromTheStack.1 u r2 _ (hurun.trans hr) hbyte
  obtain ⟨hval, htsp⟩ := hpop hsp2
  have hback : t.sp = s.sp := by
    apply BitVec.eq_of_toNat_eq
    have := s.sp.isLt
    omega
  refine ⟨u, t, hu, ht, hval, hback, fun q hq => ?_⟩
  by_cases hq7 : q = Config.spIndex
  · rw [hq7]
    exact hback
  · have hq2 : q ≠ r2 := List.ne_of_not_mem_cons hq
    rw [htkept q (by simp [hq2, hq7]), hukept q (by simp [hq7])]

/-! ### LD and ST (R105, R106) -/

/-- Settles O13: LD's one effect is the byte at the address in its second register. -/
theorem ldLoadsThroughTheSecondRegister : Obligations.LdLoadsThroughTheSecondRegister := by
  refine ⟨fun s ra rb v hr hv => ?_, checksTwo_of_exec_eq_withRegs fun _ _ _ => rfl⟩
  obtain ⟨-, rfl⟩ := memRead_eq_ok.mp hv
  exact exists_of_exec_eq_writeReg hr (by decide) (exec_ld s ra rb)

/-- Settles O14: ST writes the one cell its first register names. -/
theorem stStoresThroughTheFirstRegister : Obligations.StStoresThroughTheFirstRegister := by
  refine ⟨fun s ra rb hr => ?_, checksTwo_of_exec_eq_withRegs fun _ _ _ => rfl⟩
  refine ⟨_, exec_st_eq_next hr ra rb, ?_, fun addr haddr => ?_, rfl, fun _ _ => rfl, rfl, rfl, rfl, rfl, rfl⟩
  · exact memRead_eq_ok.mpr ⟨(s.readReg ra).isLt, Memory.get_set_self _ _ _⟩
  · exact memRead_set_ne s.mem _ (List.ne_of_not_mem_cons haddr)

/-- Settles O15: the meanings with the parameter false are the fault itself. -/
theorem ldStUnsupportedWithoutTheParameter : Obligations.LdStUnsupportedWithoutTheParameter :=
  fun s _ _ => ⟨⟨_, complete_error .ld s _, faulted_raise _ s⟩, ⟨_, complete_error .st s _, faulted_raise _ s⟩⟩

/-! ### PRN and PRA (R127, R128) -/

/-- Settles O24: the one effect is the event at the end of OUT. -/
theorem printsAppendOneEvent : Obligations.PrintsAppendOneEvent := by
  refine ⟨fun s ra hr => ⟨?_, ?_⟩, checksOne_of_exec_eq_withReg fun _ _ => rfl,
    checksOne_of_exec_eq_withReg fun _ _ => rfl⟩
  · exact ⟨_, exec_prn_eq_next hr ra, rfl, rfl, fun _ _ => rfl, rfl, fun _ _ => rfl, rfl, rfl, rfl⟩
  · exact ⟨_, exec_pra_eq_next hr ra, rfl, rfl, fun _ _ => rfl, rfl, fun _ _ => rfl, rfl, rfl, rfl⟩

end Sys2Proof.Machine
end

section
/-! PROOFS. The conditional jumps and CALL (spec/43_control_transfer.md R112 to R121). -/

namespace Sys2Proof.Machine

/-! ### The conditional jumps as tests of FL -/

/-- A conditional jump writes PC alone, by the test of its mnemonic. -/
theorem jumpsWhen_of_exec {mk : Byte → Instr} {o : Op} {cond : Byte → Bool} {taken : Byte → Prop}
    (hd : (describe o.opcode).setsPc = true)
    (h : ∀ s ra, exec (mk (regByte ra)) s =
      complete o s (.ok (s.writePc (if cond s.fl then (s.readReg ra).toNat else s.pc + 2))))
    (hc : ∀ fl, cond fl = true ↔ taken fl) : JumpsWhen mk taken := by
  intro s ra _
  refine ⟨_, (h s ra).trans (complete_ok_setsPc hd s _), fun ht => ?_, fun ht => ?_, (WritesOnlyRegs.refl s).writePc _⟩
  · exact if_pos ((hc s.fl).mpr ht)
  · exact if_neg (mt (hc s.fl).mp ht)

/-- Settles O17: each test of the flags is a test of the bits of FL, on all 256 values of it. -/
theorem conditionalJumpsFollowTheTruthTable : Obligations.ConditionalJumpsFollowTheTruthTable := by
  refine ⟨jumpsWhen_of_exec (by decide) exec_jeq ?_, jumpsWhen_of_exec (by decide) exec_jne ?_,
    jumpsWhen_of_exec (by decide) exec_jgt ?_, jumpsWhen_of_exec (by decide) exec_jlt ?_,
    jumpsWhen_of_exec (by decide) exec_jle ?_, jumpsWhen_of_exec (by decide) exec_jge ?_,
    checksOne_of_exec_eq_withReg fun _ _ => rfl, checksOne_of_exec_eq_withReg fun _ _ => rfl,
    checksOne_of_exec_eq_withReg fun _ _ => rfl, checksOne_of_exec_eq_withReg fun _ _ => rfl,
    checksOne_of_exec_eq_withReg fun _ _ => rfl, checksOne_of_exec_eq_withReg fun _ _ => rfl⟩
  all_goals decide +kernel

/-! ### The jumps after CMP -/

theorem flagL_packFlags : ∀ l g e : Bool, flagL (packFlags l g e) = l := by decide

theorem flagG_packFlags : ∀ l g e : Bool, flagG (packFlags l g e) = g := by decide

theorem flagE_packFlags : ∀ l g e : Bool, flagE (packFlags l g e) = e := by decide

theorem condJeq_compareFlags (va vb : Byte) : condJeq (compareFlags va vb) = true ↔ va.toNat = vb.toNat := by
  rw [condJeq, compareFlags, flagE_packFlags, decide_eq_true_iff]

theorem condJne_compareFlags (va vb : Byte) : condJne (compareFlags va vb) = true ↔ va.toNat ≠ vb.toNat := by
  rw [condJne, compareFlags, flagE_packFlags, ← decide_not, decide_eq_true_iff]

theorem condJgt_compareFlags (va vb : Byte) : condJgt (compareFlags va vb) = true ↔ va.toNat > vb.toNat := by
  rw [condJgt, compareFlags, flagG_packFlags, decide_eq_true_iff]

theorem condJlt_compareFlags (va vb : Byte) : condJlt (compareFlags va vb) = true ↔ va.toNat < vb.toNat := by
  rw [condJlt, compareFlags, flagL_packFlags, decide_eq_true_iff]

theorem condJle_compareFlags (va vb : Byte) : condJle (compareFlags va vb) = true ↔ va.toNat ≤ vb.toNat := by
  rw [condJle, compareFlags, flagL_packFlags, flagE_packFlags, ← Bool.decide_or, decide_eq_true_iff,
    Nat.le_iff_lt_or_eq]

theorem condJge_compareFlags (va vb : Byte) : condJge (compareFlags va vb) = true ↔ va.toNat ≥ vb.toNat := by
  rw [condJge, compareFlags, flagG_packFlags, flagE_packFlags, ← Bool.decide_or, decide_eq_true_iff, ge_iff_le,
    Nat.le_iff_lt_or_eq, eq_comm (a := vb.toNat)]

theorem exec_cmp_eq_next {s : State} (hr : s.run = .running) (ra rb : RegIndex) :
    exec (.cmp (regByte ra) (regByte rb)) s =
      .next ((s.writeFl (compareFlags (s.readReg ra) (s.readReg rb))).writePc (s.pc + 3)) :=
  (exec_cmp s ra rb).trans (complete_ok_running .cmp 2 (by decide) s hr)

/-- CMP keeps the registers, so a jump after it that tests the flags for an order goes by that order of the two
registers, to a register as it was before the CMP. -/
theorem exists_exec_jump_of_exec_cmp {s u : State} {ra rb : RegIndex} {mk : Byte → Instr} {cond : Byte → Bool}
    {order : Prop} (rt : RegIndex) (hr : s.run = .running) (hu : exec (.cmp (regByte ra) (regByte rb)) s = .next u)
    (hj : JumpsWhen mk fun fl => cond fl = true)
    (hc : cond (compareFlags (s.readReg ra) (s.readReg rb)) = true ↔ order) :
    ∃ t, exec (mk (regByte rt)) u = .next t ∧
      (order → t.pc = (s.readReg rt).toNat) ∧ (¬ order → t.pc = s.pc + 5) := by
  obtain rfl := Host.Outcome.next.inj ((exec_cmp_eq_next hr ra rb).symm.trans hu)
  obtain ⟨t, ht, htaken, hnot, -⟩ :=
    hj ((s.writeFl (compareFlags (s.readReg ra) (s.readReg rb))).writePc (s.pc + 3)) rt hr
  exact ⟨t, ht, fun ho => htaken (hc.mpr ho), fun ho => hnot (mt hc.mp ho)⟩

/-- Settles O18: the flags of the comparison are the orders of the two bytes, so each test is the order of its jump. -/
theorem compareThenJumpFollowsUnsignedOrder : Obligations.CompareThenJumpFollowsUnsignedOrder := by
  intro s u ra rb rt hr hu va vb goes
  refine ⟨exists_exec_jump_of_exec_cmp rt hr hu ?_ (condJeq_compareFlags _ _),
    exists_exec_jump_of_exec_cmp rt hr hu ?_ (condJne_compareFlags _ _),
    exists_exec_jump_of_exec_cmp rt hr hu ?_ (condJgt_compareFlags _ _),
    exists_exec_jump_of_exec_cmp rt hr hu ?_ (condJlt_compareFlags _ _),
    exists_exec_jump_of_exec_cmp rt hr hu ?_ (condJle_compareFlags _ _),
    exists_exec_jump_of_exec_cmp rt hr hu ?_ (condJge_compareFlags _ _)⟩
  · exact jumpsWhen_of_exec (by decide) exec_jeq fun _ => .rfl
  · exact jumpsWhen_of_exec (by decide) exec_jne fun _ => .rfl
  · exact jumpsWhen_of_exec (by decide) exec_jgt fun _ => .rfl
  · exact jumpsWhen_of_exec (by decide) exec_jlt fun _ => .rfl
  · exact jumpsWhen_of_exec (by decide) exec_jle fun _ => .rfl
  · exact jumpsWhen_of_exec (by decide) exec_jge fun _ => .rfl

/-! ### CALL (R118) -/

theorem exec_call_eq_next {s : State} (h : s.pc + 2 < 256) (ra : RegIndex) :
    exec (.call (regByte ra)) s =
      .next ((s.pushed (BitVec.ofNat 8 (s.pc + 2))).writePc (s.decSp.readReg ra).toNat) :=
  (exec_call s ra h).trans (complete_ok_setsPc (by decide) s _)

/-- Settles O19: the next state is the state after a push of the return address, PC the target as the push leaves it. -/
theorem callPushesTheReturnAddress : Obligations.CallPushesTheReturnAddress := by
  refine ⟨fun s ra _ hpc => ?_, checksOne_of_exec_eq_withReg fun _ _ => rfl⟩
  exact ⟨_, exec_call_eq_next (Nat.lt_succ_of_le hpc) ra, s.decSp_sp_toNat, s.byteAt_pushed _,
    s.memKept_pushed (BitVec.ofNat 8 (s.pc + 2)), congrArg BitVec.toNat (s.readReg_decSp ra),
    s.regsKept_pushed (BitVec.ofNat 8 (s.pc + 2)), rfl, rfl, rfl, rfl, rfl⟩

/-- Settles O20: the memory write refuses the return address, and fault entry discards what the push did. -/
theorem callAtTheTopTakesInvalidValue : Obligations.CallAtTheTopTakesInvalidValue := by
  refine ⟨fun s ra h => takes_of_exec_eq_raise (exec_call_invalidValue s ra h), fun s ra hr hpc hop ha => ?_⟩
  have hbytes : BytesAt s s.pc [0x50#8, regByte ra] := by
    rw [hpc]
    exact ⟨hop, ha, trivial⟩
  have hi : InstrAt s (.call (regByte ra)) := instrAt_of_bytesAt hbytes
  have hstep : step s = .next (raise (.invalidValue (s.pc + 2)) (s.writeIr 0x50#8)) :=
    (hi.step hr).trans (exec_call_invalidValue _ ra (by rw [State.writeIr_pc]; omega))
  exact ⟨_, hstep, by rw [raise_err, hpc], rfl, hpc, rfl, fun _ _ => rfl⟩

end Sys2Proof.Machine
end

section
/-! PROOFS. Memory as a whole (spec/20_memory.md section 1), a program in memory (section 9, 70_reset_and_hazards.md
section 2), reset and bounded runs. -/

namespace Sys2Proof.Machine

/-! ### Writes and the canonical form -/

/-- Settles O50: the address is checked first, then the value; a write that passes both is `Memory.set`. -/
theorem memWriteChangesExactlyOneCell : Obligations.MemWriteChangesExactlyOneCell := by
  refine fun m addr v hm => ⟨fun ha hv => ?_, fun ha hv => ?_, fun ha => memWrite_outOfBounds m ha⟩
  · have ha' : addr < 256 := Nat.lt_succ_of_le ha
    exact ⟨_, memWrite_ok m ha' (Nat.lt_succ_of_le hv), m.wf_set addr _ ha' hm,
      memRead_eq_ok.mpr ⟨ha', m.get_set_self addr _⟩, fun _ hother => memRead_set_ne m _ hother⟩
  · exact memWrite_invalidValue m (Nat.lt_succ_of_le ha) hv

theorem Memory.wfFrom_cons {lo k : Nat} {v : Byte} {m : Memory} (h : Memory.wfFrom lo ((k, v) :: m) = true) :
    k < 256 ∧ v ≠ 0#8 ∧ Memory.wfFrom (k + 1) m = true := by
  simp only [Memory.wfFrom, Bool.and_eq_true, decide_eq_true_eq] at h
  obtain ⟨⟨⟨-, hk⟩, hv⟩, hm⟩ := h
  exact ⟨hk, hv, hm⟩

theorem Memory.get_cons_self (k : Nat) (v : Byte) (m : Memory) : Memory.get ((k, v) :: m) k = v := if_pos rfl

/-- The cells below the first one listed read 0. -/
theorem Memory.get_cons_of_lt {lo k a : Nat} {v : Byte} {m : Memory} (h : Memory.wfFrom lo ((k, v) :: m) = true)
    (ha : a < k) : Memory.get ((k, v) :: m) a = 0#8 := by
  obtain ⟨-, -, hm⟩ := Memory.wfFrom_cons h
  rw [Memory.get_cons, if_neg ha.ne', m.get_of_lt_wfFrom _ a hm (ha.trans (Nat.lt_succ_self k))]

/-- Canonical lists that read alike begin with the same cell, the first one that does not read 0, and go on alike. -/
theorem Memory.eq_of_get_eq : ∀ {m m' : Memory} {lo lo' : Nat}, Memory.wfFrom lo m = true →
    Memory.wfFrom lo' m' = true → (∀ a, a < 256 → Memory.get m a = Memory.get m' a) → m = m'
  | [], [], _, _, _, _, _ => rfl
  | [], (k, v) :: m', _, _, _, h', heq => by
    obtain ⟨hk, hv, -⟩ := Memory.wfFrom_cons h'
    exact absurd ((Memory.get_cons_self k v m').symm.trans (heq k hk).symm) hv
  | (k, v) :: m, [], _, _, h, _, heq => by
    obtain ⟨hk, hv, -⟩ := Memory.wfFrom_cons h
    exact absurd ((Memory.get_cons_self k v m).symm.trans (heq k hk)) hv
  | (k, v) :: m, (k', v') :: m', _, _, h, h', heq => by
    obtain ⟨hk, hv, hm⟩ := Memory.wfFrom_cons h
    obtain ⟨hk', hv', hm'⟩ := Memory.wfFrom_cons h'
    obtain hlt | rfl | hgt := Nat.lt_trichotomy k k'
    · exact absurd ((Memory.get_cons_self k v m).symm.trans ((heq k hk).trans (Memory.get_cons_of_lt h' hlt))) hv
    · have hvv : v = v' := by simpa only [Memory.get_cons_self] using heq k hk
      have htail : ∀ a, a < 256 → Memory.get m a = Memory.get m' a := fun a ha => by
        obtain hgt | hle := Nat.lt_or_ge k a
        · simpa only [Memory.get_cons, if_neg hgt.ne] using heq a ha
        · have hlt : a < k + 1 := Nat.lt_succ_of_le hle
          rw [Memory.get_of_lt_wfFrom m _ a hm hlt, Memory.get_of_lt_wfFrom m' _ a hm' hlt]
      rw [hvv, Memory.eq_of_get_eq hm hm' htail]
    · exact absurd ((Memory.get_cons_self k' v' m').symm.trans
        ((heq k' hk').symm.trans (Memory.get_cons_of_lt h hgt))) hv'

/-- Settles O51, by induction on the two lists of cells. -/
theorem canonicalMemoriesAreEqualWhenTheyReadAlike : Obligations.CanonicalMemoriesAreEqualWhenTheyReadAlike := by
  refine fun m m' hm hm' h => Memory.eq_of_get_eq hm hm' fun a ha => ?_
  have := h a (Nat.le_of_lt_succ ha)
  rw [memRead_lt m ha, memRead_lt m' ha] at this
  exact Except.ok.inj this

/-! ### A program in memory -/

theorem memRead_install_of_getElem? {m : Memory} {base k : Nat} {v : Byte} {bytes : List Byte}
    (hend : base + bytes.length ≤ 256) (h : bytes[k]? = some v) :
    memRead (m.install base bytes) (base + k) = .ok v := by
  obtain ⟨hk, -⟩ := List.getElem?_eq_some_iff.mp h
  refine memRead_eq_ok.mpr ⟨by omega, ?_⟩
  rw [Memory.get_install, if_pos (Nat.le_add_right base k), Nat.add_sub_cancel_left, h, Option.getD_some]

/-- Bytes installed at PC that begin with the encoding of `i` hold `i`. -/
theorem instrAt_of_install {s : State} {m : Memory} {i : Instr} {bytes rest : List Byte}
    (hmem : s.mem = m.install s.pc bytes) (hb : bytes = encode i ++ rest) (hend : s.pc + bytes.length ≤ 256) :
    InstrAt s i := by
  refine instrAt_of_bytes hb fun {k v} hv => ?_
  rw [ByteAt, hmem]
  exact memRead_install_of_getElem? hend hv

/-- Settles O52: ST stores the byte at the PC it goes on to, and the next step's opcode fetch finds it there. -/
theorem storedByteIsFetchedByTheNextStep : Obligations.StoredByteIsFetchedByTheNextStep := by
  intro s ra rb hr _ hop ha hb haddr
  have hi : InstrAt s (.st (regByte ra) (regByte rb)) :=
    instrAt_of_bytesAt (show BytesAt s s.pc [0x84#8, regByte ra, regByte rb] from ⟨hop, ha, hb, trivial⟩)
  obtain ⟨t, ht, hbyte, -, hpc, -, -, -, hrun, -⟩ := stStoresThroughTheFirstRegister.1 (s.writeIr 0x84#8) ra rb hr
  obtain ⟨u, hu⟩ := exists_step_eq_next (hrun.trans hr)
  have hnext : ByteAt t t.pc (s.readReg rb) := by
    rw [hpc, State.writeIr_pc, ← haddr]
    exact hbyte
  exact ⟨t, u, (hi.step hr).trans ht, hpc, hu, ir_of_step hnext hu⟩

/-! ### Reset and load -/

/-- Settles O54: an empty memory reads 0 everywhere. -/
theorem resetOfEverythingElse : Obligations.ResetOfEverythingElse :=
  ⟨rfl, rfl, rfl, fun _ h => memRead_lt [] (Nat.lt_succ_of_le h), rfl, rfl, rfl⟩

/-- The state after the load of a program that fits. -/
theorem loadProgram_of_length_le {program : List Byte} (s : State) (h : program.length ≤ 256) :
    loadProgram program s = .ok { s with mem := s.mem.install 0 program, pc := 0, run := .running, err := none } :=
  if_pos h

theorem loadProgram_of_length_gt {program : List Byte} (s : State) (h : 257 ≤ program.length) :
    loadProgram program s = .error (.programTooLarge program.length) :=
  if_neg (Nat.not_le_of_lt h)

/-- Settles O55: what a cell reads after the image is installed depends on whether the image reaches it. -/
theorem loadCopiesTheImage : Obligations.LoadCopiesTheImage := by
  refine fun program s => ⟨fun h => ?_, fun h => ?_⟩
  · refine ⟨_, loadProgram_of_length_le s h, fun k v hv => ?_, fun addr haddr => ?_, rfl, rfl, rfl, fun _ _ => rfl,
      rfl, rfl, rfl⟩
    · have hread := memRead_install_of_getElem? (m := s.mem) ((Nat.zero_add _).trans_le h) hv
      rwa [Nat.zero_add] at hread
    · simp only [memRead, Memory.get_install, Nat.zero_le, if_true, Nat.sub_zero, List.getElem?_eq_none haddr,
        Option.getD_none]
  · have herr := loadProgram_of_length_gt s h
    exact ⟨herr, by rw [act, herr]⟩

/-- Settles O56: the image lies at 0, where PC is. -/
theorem loadedImageRunsFromAddressZero : Obligations.LoadedImageRunsFromAddressZero := by
  intro i rest s t hlen h
  obtain rfl := Except.ok.inj ((loadProgram_of_length_le s hlen).symm.trans h)
  have hi : InstrAt { s with mem := s.mem.install 0 (encode i ++ rest), pc := 0, run := .running, err := none } i :=
    instrAt_of_install rfl rfl ((Nat.zero_add _).trans_le hlen)
  exact ⟨hi.step rfl, rfl⟩

/-- Settles O59: at 253 or below all three bytes of the word are placed. -/
theorem placedWordIsExecuted : Obligations.PlacedWordIsExecuted := by
  intro s nbits w i hpc h
  have hend : s.pc + (tableWordBytes nbits w).length ≤ 256 := Nat.add_le_add_right hpc 3
  have hmem : (s.withFetchWord nbits w).mem = s.mem.install s.pc (tableWordBytes nbits w) :=
    congrArg (s.mem.install s.pc) (List.take_of_length_le (Nat.le_sub_of_add_le' hend))
  unfold decodeTableWord at h
  split at h
  · next j rest hdec =>
    cases h
    have hi : InstrAt (s.withFetchWord nbits w) i :=
      instrAt_of_install hmem (eq_encode_append_of_decode hdec) hend
    exact hi.step rfl
  · cases h

/-! ### Bounded runs (70_reset_and_hazards.md R176, R177) -/

theorem runFor_of_halted (k : Nat) {s : State} (h : s.run = .halted) : runFor k s = s := by
  cases k with
  | zero => rfl
  | succ k => rw [runFor, step_halted h]

theorem runFor_add (j k : Nat) (s : State) : runFor (j + k) s = runFor k (runFor j s) := by
  induction j generalizing s with
  | zero => rw [Nat.zero_add, runFor]
  | succ j ih =>
    cases hr : s.run with
    | halted => rw [runFor_of_halted _ hr, runFor_of_halted _ hr, runFor_of_halted _ hr]
    | running =>
      obtain ⟨t, ht⟩ := exists_step_eq_next hr
      rw [Nat.add_right_comm, runFor, runFor, ht]
      exact ih t

/-- Settles O57: by induction on the first number of steps; a halted engine takes none in either run. -/
theorem runsCanBeTakenUpAgain : Obligations.RunsCanBeTakenUpAgain :=
  ⟨runFor_add, fun k _ => runFor_of_halted k⟩

end Sys2Proof.Machine
end

section
/-! PROOFS. The operand check (spec/30_encoding.md R56, 60_exceptions.md R143): InvalidRegister for the first checked
operand byte above 7, and for nothing else. -/

namespace Sys2Proof.Machine

/-- Every instruction has no checked operand, or is a body behind the check of one, or of two. -/
theorem exec_form (i : Instr) :
    i.regOperands = [] ∨
    (∃ (o : Op) (a : Byte) (body : State → RegIndex → Except Fault State),
      i.regOperands = [a] ∧ ∀ s, exec i s = withReg o a s (body s)) ∨
    (∃ (o : Op) (a b : Byte) (body : State → RegIndex → RegIndex → Except Fault State),
      i.regOperands = [a, b] ∧ ∀ s, exec i s = withRegs o a b s (body s)) := by
  cases i with
  | nop | hlt | ret | iret | int => exact .inl rfl
  | push | pop | prn | pra | call | jmp | jeq | jne | jgt | jlt | jle | jge | inc | dec | not | ldi =>
    exact .inr (.inl ⟨_, _, _, rfl, fun _ => rfl⟩)
  | ld | st | add | sub | mul | div | mod | cmp | and | or | xor | shl | shr =>
    exact .inr (.inr ⟨_, _, _, _, rfl, fun _ => rfl⟩)

theorem exec_of_badRegister {i : Instr} {idx : Byte} (h : i.badRegister = some idx) (s : State) :
    exec i s = .next (raise (.invalidRegister idx) s) := by
  unfold Instr.badRegister at h
  obtain hform | ⟨o, a, body, hform, hexec⟩ | ⟨o, a, b, body, hform, hexec⟩ := exec_form i
  · rw [hform] at h
    cases h
  · rw [hform, List.find?_singleton, Option.ite_none_right_eq_some, decide_eq_true_eq] at h
    obtain ⟨ha, hidx⟩ := h
    obtain rfl := Option.some.inj hidx
    rw [hexec, withReg_bad o ha]
  · rw [hform, List.find?_cons] at h
    split at h
    · next ha =>
      cases h
      rw [hexec, withRegs_bad_first o b (of_decide_eq_true ha)]
    · next ha =>
      rw [List.find?_singleton, Option.ite_none_right_eq_some, decide_eq_true_eq] at h
      obtain ⟨hb, hidx⟩ := h
      obtain rfl := Option.some.inj hidx
      obtain ⟨ra, rfl⟩ := reg_of_lt (Nat.lt_of_not_le (of_decide_eq_false ha))
      rw [hexec, withRegs_bad_second o ra hb]

theorem wf_iff_badRegister_eq_none (i : Instr) : i.wf = true ↔ i.badRegister = none := by
  simp [Instr.wf, Instr.badRegister, List.find?_eq_none]

theorem wf_eq_false_iff (i : Instr) : i.wf = false ↔ ∃ idx, i.badRegister = some idx := by
  rw [← Bool.not_eq_true, wf_iff_badRegister_eq_none, ← ne_eq, Option.ne_none_iff_exists']

/-- The operand check is the one place of an instruction that raises InvalidRegister. -/
theorem FaultOf.wf_eq_false {s : State} {i : Instr} {idx : Byte} (h : FaultOf s i (.invalidRegister idx)) :
    i.wf = false := by
  cases h with
  | invalidRegister _ _ ha h8 =>
    exact List.all_eq_false.mpr ⟨idx, ha, by simpa using h8⟩

/-- Settles O47: by the form of the instruction, the reasons of its faults, and the two readings of its operand list. -/
theorem invalidRegisterExactlyWhenIllFormed : Obligations.InvalidRegisterExactlyWhenIllFormed := by
  refine ⟨fun i s idx h => takes_of_exec_eq_raise (exec_of_badRegister h s), fun i s t idx hwf herr h ht => ?_,
    wf_eq_false_iff⟩
  obtain ⟨f, hf, rfl⟩ | ⟨u, hu, rfl⟩ := exec_cases h
  · cases ht
    cases hwf.symm.trans hf.wf_eq_false
  · rw [advancePc_err, hu.err, herr] at ht
    cases ht

end Sys2Proof.Machine
end

section
/-! PROOFS. What an instruction does not read: registers it does not name (spec/60_exceptions.md R155), FL but for the
conditional jumps (10_state.md R16), IR and OUT (R18, R20). Each is a change of the state that every operation an
instruction uses carries through, so that the instruction does. -/

namespace Sys2Proof.Machine

/-! ### A change that an instruction carries through -/

/-- An outcome with its next state changed. -/
def mapNext (F : State → State) : Host.Outcome State Fault Refusal → Host.Outcome State Fault Refusal
  | .next t => .next (F t)
  | .fault f => .fault f
  | .refused r => .refused r

/-- The registers an instruction may use: SP and the ones its register operands name. -/
def Uses (i : Instr) (r : RegIndex) : Prop := r = Config.spIndex ∨ regByte r ∈ i.regOperands

/-- `F` changes nothing that the instruction `i` reads, and what `i` writes can be written before it or after it. -/
structure Unread (i : Instr) (F : State → State) : Prop where
  pc : ∀ s, (F s).pc = s.pc
  mem : ∀ s, (F s).mem = s.mem
  run : ∀ s, (F s).run = s.run
  readFl : i.op ∈ [Op.jeq, .jne, .jgt, .jlt, .jle, .jge] → ∀ s, (F s).fl = s.fl
  readReg : ∀ s r, Uses i r → (F s).readReg r = s.readReg r
  writeReg : ∀ s r v, Uses i r → (F s).writeReg r v = F (s.writeReg r v)
  writePc : ∀ s t, (F s).writePc t = F (s.writePc t)
  writeMem : ∀ s m, (F s).writeMem m = F (s.writeMem m)
  writeFl : i.op = .cmp → ∀ s fl, (F s).writeFl fl = F (s.writeFl fl)
  halt : ∀ s, (F s).halt = F s.halt
  emit : ∀ s e, (F s).emit e = F (s.emit e)
  raise : ∀ f s, raise f (F s) = F (raise f s)

/-- What the ALU answers is the flags of a comparison, or a result (R94). -/
theorem Alu.apply_cases {f : AluOp} {va vb : Byte} {out : AluOut} (h : Alu.apply f va vb = .ok out) :
    f = .cmp ∨ ∃ v, out = .result v := by
  cases f with
  | cmp => exact .inl rfl
  | div | mod =>
    simp only [Alu.apply] at h
    split at h
    · cases h
    · exact .inr ⟨_, (Except.ok.inj h).symm⟩
  | _ => exact .inr ⟨_, (Except.ok.inj h).symm⟩

section
variable {i : Instr} {F : State → State} (h : Unread i F)
include h

/-! ### The stack and memory -/

theorem Unread.sp (s : State) : (F s).sp = s.sp := h.readReg s Config.spIndex (.inl rfl)

theorem Unread.decSp (s : State) : (F s).decSp = F s.decSp := by
  rw [State.decSp, h.sp, h.writeReg s _ _ (.inl rfl), State.decSp]

theorem Unread.incSp (s : State) : (F s).incSp = F s.incSp := by
  rw [State.incSp, h.sp, h.writeReg s _ _ (.inl rfl), State.incSp]

theorem Unread.readByte (s : State) (addr : Nat) : (F s).readByte addr = s.readByte addr := by
  rw [State.readByte, h.mem, State.readByte]

theorem Unread.storeByte (s : State) (addr v : Nat) : (F s).storeByte addr v = (s.storeByte addr v).map F := by
  rw [State.storeByte, h.mem, State.storeByte]
  cases memWrite s.mem addr v with
  | error f => rfl
  | ok m => exact congrArg Except.ok (h.writeMem s m)

theorem Unread.push (s : State) (v : Nat) : (F s).push v = (s.push v).map F := by
  rw [State.push, h.decSp, h.sp, h.storeByte, State.push]

/-! ### The shared shapes -/

theorem Unread.complete (o : Op) (s : State) (r : Except Fault State) :
    complete o (F s) (r.map F) = mapNext F (complete o s r) := by
  cases r with
  | error f => exact congrArg Host.Outcome.next (h.raise f s)
  | ok t =>
    refine congrArg Host.Outcome.next ?_
    rw [advancePc_eq, h.run, h.pc, h.writePc, advancePc_eq]

theorem Unread.complete_ok (o : Op) (s : State) {t t' : State} (ht : t' = F t) :
    Machine.complete o (F s) (.ok t') = mapNext F (Machine.complete o s (.ok t)) :=
  ht ▸ h.complete o s (.ok t)

theorem Unread.withReg {o : Op} {a : Byte} {s : State} {body body' : RegIndex → Except Fault State}
    (hi : i.regOperands = [a]) (hb : ∀ r, Uses i r → body' r = (body r).map F) :
    withReg o a (F s) body' = mapNext F (withReg o a s body) := by
  by_cases ha : a.toNat < 8
  · obtain ⟨r, rfl⟩ := reg_of_lt ha
    rw [withReg_regByte, withReg_regByte, hb r (.inr (by simp [hi])), h.complete]
  · rw [withReg_bad o (Nat.le_of_not_lt ha), withReg_bad o (Nat.le_of_not_lt ha), h.raise, mapNext]

theorem Unread.withRegs {o : Op} {a b : Byte} {s : State} {body body' : RegIndex → RegIndex → Except Fault State}
    (hi : i.regOperands = [a, b]) (hb : ∀ r q, Uses i r → Uses i q → body' r q = (body r q).map F) :
    withRegs o a b (F s) body' = mapNext F (withRegs o a b s body) := by
  by_cases ha : a.toNat < 8
  · obtain ⟨r, rfl⟩ := reg_of_lt ha
    by_cases hb8 : b.toNat < 8
    · obtain ⟨q, rfl⟩ := reg_of_lt hb8
      rw [withRegs_regByte, withRegs_regByte, hb r q (.inr (by simp [hi])) (.inr (by simp [hi])), h.complete]
    · rw [withRegs_bad_second o r (Nat.le_of_not_lt hb8), withRegs_bad_second o r (Nat.le_of_not_lt hb8), h.raise,
        mapNext]
  · rw [withRegs_bad_first o b (Nat.le_of_not_lt ha), withRegs_bad_first o b (Nat.le_of_not_lt ha), h.raise, mapNext]

/-- Only CMP's ALU operation answers with flags (R94), and CMP does not read FL. -/
theorem Unread.writeAlu {f : AluOp} (hf : f ≠ .cmp ∨ i.op = .cmp) {va vb : Byte} {out : AluOut}
    (ha : Alu.apply f va vb = .ok out) {s : State} {r : RegIndex} (hr : Uses i r) :
    writeAlu r (F s) out = F (writeAlu r s out) := by
  obtain rfl | ⟨v, rfl⟩ := Alu.apply_cases ha
  · cases out with
    | result v => exact h.writeReg s r _ hr
    | flags fl => exact h.writeFl (hf.resolve_left fun hne => hne rfl) s fl
  · exact h.writeReg s r _ hr

theorem Unread.alu {f : AluOp} (hf : f ≠ .cmp ∨ i.op = .cmp) (va vb : Byte) (s : State) {r : RegIndex}
    (hr : Uses i r) :
    (do let out ← Alu.apply f va vb; return Machine.writeAlu r (F s) out) =
      (do let out ← Alu.apply f va vb; return Machine.writeAlu r s out : Except Fault State).map F := by
  cases ha : Alu.apply f va vb with
  | error e => rfl
  | ok out => exact congrArg Except.ok (h.writeAlu hf ha hr)

theorem Unread.aluOne {o : Op} {f : AluOp} {a : Byte} (hi : i.regOperands = [a]) (hf : f ≠ .cmp ∨ i.op = .cmp)
    (s : State) : aluOne o f a (F s) = mapNext F (aluOne o f a s) :=
  h.withReg hi fun r hr => by
    rw [h.readReg s r hr]
    exact h.alu hf _ _ s hr

theorem Unread.aluTwo {o : Op} {f : AluOp} {a b : Byte} (hi : i.regOperands = [a, b]) (hf : f ≠ .cmp ∨ i.op = .cmp)
    (s : State) : aluTwo o f a b (F s) = mapNext F (aluTwo o f a b s) :=
  h.withRegs hi fun r q hr hq => by
    rw [h.readReg s r hr, h.readReg s q hq]
    exact h.alu hf _ _ s hr

theorem Unread.jumpIf {o : Op} {cond : Byte → Bool} {a : Byte} (hi : i.regOperands = [a])
    (ho : i.op ∈ [Op.jeq, .jne, .jgt, .jlt, .jle, .jge]) (s : State) :
    jumpIf o cond a (F s) = mapNext F (jumpIf o cond a s) :=
  h.withReg hi fun r hr => by
    rw [h.readFl ho, target, h.readReg s r hr, h.pc, h.writePc]
    rfl

/-! ### Every instruction -/

/-- An instruction carries through a change of what it does not read. -/
theorem Unread.exec (s : State) : exec i (F s) = mapNext F (exec i s) := by
  cases i with
  | nop => exact h.complete .nop s (.ok s)
  | hlt => exact h.complete_ok .hlt s (h.halt s)
  | ret =>
    rw [exec_ret, exec_ret, h.incSp, h.sp, h.mem]
    exact h.complete_ok .ret s (h.writePc s.incSp _)
  | iret => exact h.complete .iret s (.error _)
  | int a => exact h.complete .int s (.error _)
  | push a =>
    refine h.withReg rfl fun r hr => ?_
    rw [h.decSp, h.readReg _ r hr, h.push]
  | pop a =>
    refine h.withReg rfl fun r hr => ?_
    rw [h.sp, h.readByte, State.readByte_byte, except_bind_ok, except_bind_ok, h.writeReg s r _ hr, h.incSp]
    rfl
  | prn a =>
    refine h.withReg rfl fun r hr => ?_
    rw [h.readReg s r hr, h.emit]
    rfl
  | pra a =>
    refine h.withReg rfl fun r hr => ?_
    rw [h.readReg s r hr, h.emit]
    rfl
  | call a =>
    refine h.withReg rfl fun r hr => ?_
    rw [h.pc, h.push]
    cases s.push (s.pc + 2) with
    | error f => rfl
    | ok t => exact congrArg Except.ok (by rw [target, h.readReg t r hr, h.writePc, target])
  | jmp a =>
    refine h.withReg rfl fun r hr => ?_
    rw [target, h.readReg s r hr, h.writePc]
    rfl
  | jeq | jne | jgt | jlt | jle | jge => exact h.jumpIf rfl (by simp [Instr.op]) s
  | inc | dec | not => exact h.aluOne rfl (.inl (by decide)) s
  | ldi a imm => exact h.withReg rfl fun r hr => congrArg Except.ok (h.writeReg s r _ hr)
  | ld a b =>
    refine h.withRegs rfl fun r q hr hq => ?_
    rw [indirect, h.readReg s q hq, h.readByte, State.readByte_byte, except_bind_ok, h.writeReg s r _ hr, indirect,
      State.readByte_byte]
    rfl
  | st a b =>
    refine h.withRegs rfl fun r q hr hq => ?_
    rw [indirect, h.readReg s r hr, h.readReg s q hq, h.storeByte, indirect]
  | cmp => exact h.aluTwo rfl (.inr rfl) s
  | add | sub | mul | div | mod | and | or | xor | shl | shr => exact h.aluTwo rfl (.inl (by decide)) s

theorem Unread.exec_eq_next {s t : State} (ht : Machine.exec i s = .next t) : Machine.exec i (F s) = .next (F t) := by
  rw [h.exec, ht, mapNext]

end

/-! ### A register that is not named -/

/-- `s` with the byte `v` in `x[r]`. -/
def State.putReg (r : RegIndex) (v : Byte) (s : State) : State := { s with regs := s.regs.set r v }

theorem State.putReg_eq_writeReg (r : RegIndex) (v : Byte) (s : State) : s.putReg r v = s.writeReg r v.toNat := by
  rw [State.putReg, State.writeReg, mask8_natCast_toNat]

theorem unread_putReg {i : Instr} {r : RegIndex} (v : Byte) (hr : ∀ q, Uses i q → q ≠ r) :
    Unread i (State.putReg r v) where
  pc _ := rfl
  mem _ := rfl
  run _ := rfl
  readFl _ _ := rfl
  readReg s q hq := by rw [s.putReg_eq_writeReg, s.readReg_writeReg_ne _ (hr q hq)]
  writeReg s q w hq := by
    have hne : r.val ≠ q.val := fun e => hr q hq (Fin.ext e.symm)
    simp only [State.writeReg, State.putReg, Vector.set_comm _ _ hne]
  writePc _ _ := rfl
  writeMem _ _ := rfl
  writeFl _ _ _ := rfl
  halt _ := rfl
  emit _ _ := rfl
  raise _ _ := rfl

/-- Settles O43: an instruction that uses neither R7 nor the register carries its replacement through. -/
theorem unnamedRegistersAreInert : Obligations.UnnamedRegistersAreInert := by
  intro i s t r v hsp hi h
  refine (unread_putReg v fun q hq hqr => ?_).exec_eq_next h
  obtain rfl | hmem := hq
  · exact hsp hqr.symm
  · exact hi _ hmem (by rw [regByte_toNat, hqr])

/-! ### FL -/

/-- `s` with another FL. -/
def State.putFl (fl : Byte) (s : State) : State := { s with fl := fl }

theorem unread_putFl {i : Instr} (fl : Byte) (hj : i.op ∉ [Op.jeq, .jne, .jgt, .jlt, .jle, .jge]) (hc : i.op ≠ .cmp) :
    Unread i (State.putFl fl) where
  pc _ := rfl
  mem _ := rfl
  run _ := rfl
  readFl h := absurd h hj
  readReg _ _ _ := rfl
  writeReg _ _ _ _ := rfl
  writePc _ _ := rfl
  writeMem _ _ := rfl
  writeFl h := absurd h hc
  halt _ := rfl
  emit _ _ := rfl
  raise _ _ := rfl

/-- CMP replaces FL whatever it was, or takes a fault that keeps it. -/
theorem exec_cmp_putFl {a b : Byte} {s t : State} (fl : Byte) (h : exec (.cmp a b) s = .next t) :
    exec (.cmp a b) (s.putFl fl) = .next (t.putFl fl) ∨ exec (.cmp a b) (s.putFl fl) = .next t := by
  obtain ⟨ha, rfl⟩ | ⟨ha, hb, rfl⟩ | ⟨ra, rb, rfl, rfl, -⟩ := withRegs_cases (o := .cmp) h
  · exact .inl (withRegs_bad_first .cmp b ha _ _)
  · obtain ⟨ra, rfl⟩ := reg_of_lt ha
    exact .inl (withRegs_bad_second .cmp ra hb _ _)
  · rw [exec_cmp] at h ⊢
    exact .inr h

theorem eq_cmp_of_op {i : Instr} (h : i.op = .cmp) : ∃ a b, i = .cmp a b := by
  cases i <;> cases h
  exact ⟨_, _, rfl⟩

/-- Settles O44: every instruction but CMP carries the other FL through, and CMP overwrites it. -/
theorem flagsReadOnlyByConditionalJumps : Obligations.FlagsReadOnlyByConditionalJumps := by
  intro i s t fl hj h
  by_cases hc : i.op = .cmp
  · obtain ⟨a, b, rfl⟩ := eq_cmp_of_op hc
    obtain h' | h' := exec_cmp_putFl fl h
    · exact ⟨fl, h', .inl rfl⟩
    · exact ⟨t.fl, h', .inr ⟨rfl, rfl⟩⟩
  · exact ⟨fl, (unread_putFl fl hj hc).exec_eq_next h, .inl rfl⟩

/-! ### IR and OUT -/

/-- `s` with other events before the ones in OUT. -/
def State.prependOut (before : List Event) (s : State) : State := { s with out := before ++ s.out }

theorem unread_prependOut (i : Instr) (before : List Event) : Unread i (State.prependOut before) where
  pc _ := rfl
  mem _ := rfl
  run _ := rfl
  readFl _ _ := rfl
  readReg _ _ _ := rfl
  writeReg _ _ _ _ := rfl
  writePc _ _ := rfl
  writeMem _ _ := rfl
  writeFl _ _ _ := rfl
  halt _ := rfl
  emit s e := by simp only [State.emit, State.prependOut, List.append_assoc]
  raise _ _ := rfl

/-- What the fetch stages end in, with the state changed. -/
def mapFetched (F : State → State) : Fetched → Fetched
  | .run i s => .run i (F s)
  | .faulted s => .faulted (F s)

theorem fetchRest_prependOut (op : Byte) (before : List Event) (s : State) :
    fetchRest op (s.prependOut before) = mapFetched (State.prependOut before) (fetchRest op s) := by
  have hoperands : fetchOperands op (s.prependOut before) = fetchOperands op s := rfl
  rw [fetchRest, hoperands, fetchRest]
  cases fetchOperands op s with
  | error f => rfl
  | ok ab => cases lookup op <;> rfl

theorem fetch_prependOut (before : List Event) (s : State) :
    fetch (s.prependOut before) = mapFetched (State.prependOut before) (fetch s) := by
  have hop : (s.prependOut before).readByte (s.prependOut before).pc = s.readByte s.pc := rfl
  rw [fetch, hop, fetch]
  cases s.readByte s.pc with
  | error f => rfl
  | ok op => exact fetchRest_prependOut op before (s.writeIr op)

theorem step_prependOut {s t : State} (before : List Event) (h : step s = .next t) :
    step (s.prependOut before) = .next (t.prependOut before) := by
  obtain ⟨hr, -⟩ := step_cases h
  rw [step_running hr] at h
  rw [step_running (s := s.prependOut before) hr, fetch_prependOut]
  cases hf : fetch s with
  | run i u =>
    rw [hf] at h
    exact (unread_prependOut i before).exec_eq_next h
  | faulted u =>
    rw [hf] at h
    cases h
    rfl

/-- Once an opcode is fetched IR is overwritten; the opcode fetch's own fault keeps it. -/
theorem step_writeIr {s t : State} (ir : Byte) (h : step s = .next t) :
    ∃ ir', step (s.writeIr ir) = .next (t.writeIr ir') := by
  obtain ⟨hr, -⟩ := step_cases h
  by_cases hpc : s.pc < 256
  · have hfetch : fetch (s.writeIr ir) = fetch s := by
      have hop : s.readByte s.pc = .ok (s.mem.get s.pc) := memRead_lt s.mem hpc
      have hop' : (s.writeIr ir).readByte (s.writeIr ir).pc = .ok (s.mem.get s.pc) := hop
      rw [fetch, hop', fetch, hop]
      rfl
    refine ⟨t.ir, ?_⟩
    rw [step_running (s := s.writeIr ir) hr, hfetch, ← step_running hr]
    exact h
  · have hge : 256 ≤ s.pc := Nat.le_of_not_lt hpc
    cases h.symm.trans (step_of_pc_ge hr hge)
    exact ⟨ir, step_of_pc_ge (s := s.writeIr ir) hr hge⟩

/-- Settles O45: a step from an empty OUT makes the events, which then stand behind any other contents. -/
theorem outputAndTraceRegisterAreNotRead : Obligations.OutputAndTraceRegisterAreNotRead := by
  intro s t ir out h
  obtain ⟨hr, -⟩ := step_cases h
  obtain ⟨t₀, ht₀⟩ := exists_step_eq_next (s := { s with out := [] }) hr
  have hs : State.prependOut s.out { s with out := [] } = s := by simp only [State.prependOut, List.append_nil]
  have hout : State.prependOut out { s with out := [] } = { s with out := out } := by
    simp only [State.prependOut, List.append_nil]
  have ht := step_prependOut s.out ht₀
  rw [hs, h] at ht
  cases ht
  have hother := step_prependOut out ht₀
  rw [hout] at hother
  obtain ⟨ir', hir'⟩ := step_writeIr ir hother
  exact ⟨t₀.out, ir', rfl, hir'⟩

end Sys2Proof.Machine
end
